-- ==== Sys2Proof/Word.lean ====
section
/-! DEFINITION. Word.lean: the plain data the block is made of (00_scope.md R9). -/

namespace Sys2Proof

/-- A host command word (30_encoding.md R70). -/
abbrev Word := BitVec 32

/-- A byte: what a framebuffer cell holds and what one transmission sends (00_scope.md R9). -/
abbrev Byte := BitVec 8

/-- One bit: a pixel, a pin level (`false` low, `true` high), the polarity bit, a status flag. -/
abbrev Bit := Bool

end Sys2Proof
end

