-- ==== Sys2Proof/Syntax.lean ====
section
/-! DEFINITION. Syntax.lean: the five host commands of spec/opcode_table.json, with decoded operands. -/

namespace Sys2Proof

/-- The rotation register's four values (10_state.md R22, 30_encoding.md R74). -/
inductive Rotation where
  | r0 | r1 | r2 | r3
  deriving DecidableEq, Repr

/-- One constructor per row of spec/opcode_table.json. Coordinates are mathematical integers once decoded
(00_scope.md R9, 30_encoding.md R72). -/
inductive Instr where
  /-- SET_PIXEL x, y, v (40_framebuffer.md R105). -/
  | setPixel (x y : Int) (v : Bit)
  /-- GET_PIXEL x, y (40_framebuffer.md R106). -/
  | getPixel (x y : Int)
  /-- SET_ROTATION r (40_framebuffer.md R107). -/
  | setRotation (r : Rotation)
  /-- CLEAR_DISPLAY (42_framer.md R154). -/
  | clearDisplay
  /-- REFRESH_DISPLAY (42_framer.md R155). -/
  | refreshDisplay
  deriving DecidableEq, Repr

end Sys2Proof
end

