-- ==== Sys2Proof/WellFormed.lean ====
section
/-! DEFINITION. WellFormed.lean: which commands a word can encode (30_encoding.md R72, R78). -/

namespace Sys2Proof

/-- A coordinate a signed 13-bit field can hold: `-4096 .. 4095` (30_encoding.md R72). -/
abbrev CoordFits (z : Int) : Prop := -4096 ≤ z ∧ z ≤ 4095

/-- The operand ranges of 30_encoding.md R78. The pixel value and the rotation are in range by their types
(92_eei_decisions.md D16, D29). -/
def Instr.wf : Instr → Bool
  | .setPixel x y _ => decide (CoordFits x) && decide (CoordFits y)
  | .getPixel x y => decide (CoordFits x) && decide (CoordFits y)
  | .setRotation _ => true
  | .clearDisplay => true
  | .refreshDisplay => true

end Sys2Proof
end

