-- ==== Sys2Proof/Decode.lean ====
section
/-! DEFINITION. Decode.lean: the decoder of 30_encoding.md R75, total on every 32-bit word and refusing by name,
and the encoder of R71 after it. The field helpers both use come first. -/

namespace Sys2Proof

/-- `OP = c[31:28]` (R70). -/
def opField (c : Word) : BitVec 4 := c.extractLsb' 28 4

/-- `X = c[25:13]` (R71). -/
def xField (c : Word) : BitVec 13 := c.extractLsb' 13 13

/-- `Y = c[12:0]` (R71). -/
def yField (c : Word) : BitVec 13 := c.extractLsb' 0 13

/-- `V = c[26]` (R73). -/
def vField (c : Word) : Bit := c.getLsbD 26

/-- `R = c[1:0]` (R74). -/
def rField (c : Word) : BitVec 2 := c.extractLsb' 0 2

/-- `sext_13`: a 13-bit field read as two's complement (00_scope.md R9, 30_encoding.md R72). -/
def sext13 (f : BitVec 13) : Int := f.toInt

/-- The rotation a 2-bit field names (R74). -/
def rotationOfBits (b : BitVec 2) : Rotation :=
  if b = 0 then .r0 else if b = 1 then .r1 else if b = 2 then .r2 else .r3

/-- The 2-bit field that names a rotation (R74). -/
def bitsOfRotation : Rotation → BitVec 2
  | .r0 => 0
  | .r1 => 1
  | .r2 => 2
  | .r3 => 3

/-- Why a word is ILLEGAL (R76). Both reasons raise the same error, ILLEGAL_COMMAND; the names are the model's (log 20). -/
inductive DecodeError where
  /-- `OP = 0000` or `OP = 0110 .. 1111`. -/
  | reservedOp (op : BitVec 4)
  /-- A defined `OP` with a reserved bit that is not zero. -/
  | reservedBits (op : BitVec 4)
  deriving DecidableEq, Repr

/-- The reason for a word that no row of the table matches (R76). -/
def illegalReason (c : Word) : DecodeError :=
  if 1 ≤ (opField c).toNat ∧ (opField c).toNat ≤ 5 then .reservedBits (opField c) else .reservedOp (opField c)

/-- R75, line by line. -/
def decode (c : Word) : Except DecodeError Instr :=
  if c &&& 0xF8000000#32 = 0x10000000#32 then .ok (.setPixel (sext13 (xField c)) (sext13 (yField c)) (vField c))
  else if c &&& 0xFC000000#32 = 0x20000000#32 then .ok (.getPixel (sext13 (xField c)) (sext13 (yField c)))
  else if c &&& 0xFFFFFFFC#32 = 0x30000000#32 then .ok (.setRotation (rotationOfBits (rField c)))
  else if c = 0x40000000#32 then .ok .clearDisplay
  else if c = 0x50000000#32 then .ok .refreshDisplay
  else .error (illegalReason c)

/-- The word of a command, from the format tables of R71. Coordinates outside the field's range are reduced to 13 bits
here; `assemble` refuses them. -/
def encode : Instr → Word
  | .setPixel x y v => 0b0001#4 ++ 0#1 ++ BitVec.ofBool v ++ BitVec.ofInt 13 x ++ BitVec.ofInt 13 y
  | .getPixel x y => 0b0010#4 ++ 0#2 ++ BitVec.ofInt 13 x ++ BitVec.ofInt 13 y
  | .setRotation r => 0b0011#4 ++ 0#26 ++ bitsOfRotation r
  | .clearDisplay => 0b0100#4 ++ 0#28
  | .refreshDisplay => 0b0101#4 ++ 0#28

/-- An assembler refuses an operand outside its range rather than truncating it (R78). -/
def assemble (i : Instr) : Option Word := if i.wf then some (encode i) else none

/-- The command word a row of spec/opcode_table.json describes: the block takes one 32-bit word as a whole (R70), so the
table's numbering of its bits is the word's own, and every bit above `nbits` is zero. -/
def tableWord (nbits w : Nat) : Word := BitVec.ofNat 32 (w % 2 ^ nbits)

/-- The instruction the decoder reads from that word. -/
def decodeTableWord (nbits w : Nat) : Option Instr :=
  match decode (tableWord nbits w) with
  | .ok i => some i
  | .error _ => none

end Sys2Proof
end

