-- ==== Sys2Proof/Config.lean ====
section
/-! DEFINITION. Config.lean: the parameters of the block (00_scope.md R7), plain data, and the ranges R7 gives them.

None can change after reset (R7, R29). State carries one `Config` as the read-only control registers of
10_state.md R29 (log 1), so that every statement about all states holds for every legal configuration.
There is no opaque constant here: what the spec calls a draw (`FB_INIT`, `SI_RESET`, `ALLOC_OK`, and the
state after a failed initialisation) comes with the reset input of State (`ResetDraw`, log 7). -/

namespace Sys2Proof

/-- The identity string of the block (00_scope.md R2). -/
def blockIdentity : String := "framebuffer_bit_packed+rotation_lut+p2s+framer+vcom_fsm+cs_clkgate"

/-- The configuration constants of 00_scope.md R7. `BPR`, `FB_BYTES` and `CLR_LUT` are computed from these
(Machine/Params.lean); `OFF_VALUE` is fixed (Machine/Operands.lean). -/
structure Config where
  /-- `W`, physical width in pixels. -/
  w : Nat
  /-- `H`, physical height in rows. -/
  h : Nat
  /-- `WRITE_COMMAND`, the write-mode bits of the command byte. -/
  writeCommand : Byte
  /-- `CLEAR_COMMAND`, the clear bits of the command byte. -/
  clearCommand : Byte
  /-- `VCOM_MASK`, the command-byte bit that carries the polarity bit. -/
  vcomMask : Byte
  /-- `VCOM_INIT`, the polarity bit after a successful reset. -/
  vcomInit : Bit
  /-- `SET_LUT[0..7]`, entry 0 first. -/
  setLut : List Byte
  /-- `CS_ACTIVE`, the level of the chip-select line when asserted. -/
  csActive : Bit
  /-- `F_CLK`: OPEN, the model has no time and no rule reads it (92_eei_decisions.md D26, log 17). -/
  fClk : Option Nat
  /-- `T_CS_SETUP`: OPEN, read by no rule (D26, log 17). -/
  tCsSetup : Option Nat
  /-- `T_IDLE_MAX`: OPEN, read by no rule (D26, log 17). -/
  tIdleMax : Option Nat
  /-- `T_VCOM_MAX`: OPEN, read by no rule (D26, log 17). -/
  tVcomMax : Option Nat
  deriving DecidableEq, Repr

/-- The eight bytes with exactly one bit set. -/
def oneHotBytes : List Byte := [0x01, 0x02, 0x04, 0x08, 0x10, 0x20, 0x40, 0x80]

/-- The legal-value constraints of 00_scope.md R7: `W` a multiple of 8 in `8 .. 4088`, `H` in `1 .. 255`
(any value: 90_conflicts.md C5), the three command masks pairwise disjoint, `SET_LUT` eight distinct one-hot bytes. -/
abbrev Config.Wf (c : Config) : Prop :=
  (c.w % 8 = 0 ∧ 8 ≤ c.w ∧ c.w ≤ 4088) ∧
  (1 ≤ c.h ∧ c.h ≤ 255) ∧
  (c.vcomMask &&& c.writeCommand = 0 ∧ c.vcomMask &&& c.clearCommand = 0 ∧ c.writeCommand &&& c.clearCommand = 0) ∧
  (c.setLut.length = 8 ∧ c.setLut.Nodup ∧ ∀ b ∈ c.setLut, b ∈ oneHotBytes)

end Sys2Proof
end

