-- ==== Sys2Proof/Machine/Params.lean ====
section
/-! DEFINITION. Machine/Params.lean: the quantities computed from a configuration, and the default values of 00_scope.md R7. -/

namespace Sys2Proof.Machine

/-- `BPR = W / 8`, bytes per row (00_scope.md R7). -/
def bpr (c : Config) : Nat := c.w / 8

/-- `FB_BYTES = W * H / 8` (00_scope.md R7, 10_state.md R21). -/
def fbBytes (c : Config) : Nat := c.w * c.h / 8

/-- `SET_LUT[k] = 1 << k`, the default table (40_framebuffer.md R104; from general knowledge: G6, log 6). -/
def defaultSetLut : List Byte := [0x01, 0x02, 0x04, 0x08, 0x10, 0x20, 0x40, 0x80]

/-- The defaults of 00_scope.md R7 for a panel of `w` by `h` pixels (PRESUMED values G1 to G7, log 6). -/
def defaultConfigOf (w h : Nat) : Config where
  w := w
  h := h
  writeCommand := 0x80
  clearCommand := 0x20
  vcomMask := 0x40
  vcomInit := true
  setLut := defaultSetLut
  csActive := true
  fClk := none
  tCsSetup := none
  tIdleMax := none
  tVcomMax := none

/-- The configuration of `State.reset`: the defaults at `8 x 2`, the geometry of the source's refresh vector
(00_scope.md R8). `W` and `H` are OPEN in the spec: DESIGN CHOICE, log 3. -/
def defaultConfig : Config := defaultConfigOf 8 2

end Sys2Proof.Machine
end

