-- ==== Sys2Proof/Machine/State.lean ====
section
/-! DEFINITION. Machine/State.lean: everything the spec gives the machine, as plain data (10_state.md), the reasons a step
can stop, and the state after reset (70_reset_and_hazards.md R230). -/

namespace Sys2Proof.Machine

/-- The framebuffer's contents: strictly rising indices, no entry equal to what an unlisted index reads as
(Machine/Memory.lean). -/
abbrev Memory := List Host.Cell

/-- The three output lines (10_state.md R27). -/
inductive Pin where
  | cs | clk | data
  deriving DecidableEq, Repr

/-- One `Emit(p, l)` (00_scope.md R11). -/
structure PinEvent where
  pin : Pin
  level : Bit
  deriving DecidableEq, Repr

/-- One `Respond(ok, d)` (60_exceptions.md R215). -/
structure Completion where
  ok : Bit
  d : Bit
  deriving DecidableEq, Repr

/-- `ERR_CAUSE` (10_state.md R28, 60_exceptions.md R200). The code `11` is reserved and never produced (log 15). -/
inductive ErrCause where
  | none | illegalCommand | notInitialised
  deriving DecidableEq, Repr

/-- The bit order of a transmitted byte (41_serializer.md R130, R131). -/
inductive BitOrder where
  | msb | lsb
  deriving DecidableEq, Repr

/-- The framer's phases (42_framer.md R160). -/
inductive Phase where
  | idle
  | cCs | cCmd | cPad | cFlip | cUncs | cFill
  | rCs | rCmd | rFlip | rAddr | rData | rEol | rTrail | rUncs
  | done
  deriving DecidableEq, Repr

/-- What one reset draws (70_reset_and_hazards.md R230): any values at all. `rot` and `vcom` are read only when
`allocOk` is false, where R232 leaves them unspecified. `fb` lists the bytes of `FB_INIT` from index 0. -/
structure ResetDraw where
  allocOk : Bit
  siReset : Bit
  fb : List Byte
  rot : Rotation
  vcom : Bit
  deriving DecidableEq, Repr

/-- The machine's state. Each field cites the rule that gives it; INVENTORY.md lists them with their reset values. -/
structure State where
  /-- The configuration constants, read-only control registers (10_state.md R29; kept here by the model: log 1). -/
  cfg : Config
  /-- `FB` (R21). -/
  fb : Memory
  /-- `rot` (R22). -/
  rot : Rotation
  /-- `vcom` (R23). -/
  vcom : Bit
  /-- `INIT_OK` (R25). -/
  initOk : Bit
  /-- `ERR` (R26). -/
  err : Bit
  /-- `ERR_CAUSE` (R26). -/
  errCause : ErrCause
  /-- The level of `CS` (R27). -/
  cs : Bit
  /-- The level of `CLK` (R27). -/
  clk : Bit
  /-- The level of `DATA` (R27). -/
  data : Bit
  /-- The output trace, oldest event first (R20). -/
  trace : List PinEvent
  /-- The completion records, oldest first (R20, 60_exceptions.md R215). -/
  completions : List Completion
  /-- `BUSY` (R28). -/
  busy : Bit
  /-- The framer's phase (R31). -/
  phase : Phase
  /-- The framer's row counter `i` (R31). -/
  row : Nat
  /-- The framer's byte counter `j` (R31). -/
  col : Nat
  /-- The shift register `SR` (R32). -/
  sr : Byte
  /-- The bit count `n` (R32). -/
  bitCount : Nat
  /-- The bit order `ord` (R32). -/
  bitOrder : BitOrder
  /-- The command port: the word it holds, then what the host presents next (60_exceptions.md R212; log 10). -/
  port : List Word
  /-- The reset input: asserted with the draws of that reset, or not (70_reset_and_hazards.md R230; log 7). -/
  resetIn : Option ResetDraw
  deriving DecidableEq, Repr

/-- The reasons the machine stops. The spec gives it none: its errors are next states (60_exceptions.md R201). -/
inductive Fault where
  /-- Raised by the framebuffer access operations for an index outside `0 .. FB_BYTES - 1`, which 20_memory.md R58 says no
  rule ever forms. Safe: the model stops where the spec has no case (log 14). -/
  | fbIndexOutOfRange
  deriving DecidableEq, Repr

/-- The reasons a step is refused. -/
inductive Refusal where
  /-- Answered by `exec` for a command with no meaning yet; no arm does. Safe. -/
  | notModelled (mnemonic : String)
  /-- Answered by `step` in a state whose configuration is outside 00_scope.md R7, which the spec refuses
  (60_exceptions.md R205 (1)). Safe (log 2). -/
  | illegalConfiguration
  deriving DecidableEq, Repr

/-- The block right after a successful reset (70_reset_and_hazards.md R230, R231) under `defaultConfig` (log 3), with
`ALLOC_OK = 1` and `SI_RESET = 0` (log 4), a framebuffer with nothing listed (log 5), the internal registers that no rule
reads at 0 (log 9), and nothing presented on the port (log 10). -/
def State.reset : State where
  cfg := defaultConfig
  fb := []
  rot := .r0
  vcom := defaultConfig.vcomInit
  initOk := true
  err := false
  errCause := .none
  cs := !defaultConfig.csActive
  clk := false
  data := false
  trace := []
  completions := []
  busy := false
  phase := .idle
  row := 0
  col := 0
  sr := 0
  bitCount := 0
  bitOrder := .msb
  port := []
  resetIn := none

end Sys2Proof.Machine
end

