-- ==== Sys2Proof/Machine/Flags.lean ====
section
/-! DEFINITION. Machine/Flags.lean: the STATUS view (10_state.md R28), the sticky error record (60_exceptions.md R201) and
the polarity bit's contribution to a command byte (42_framer.md R152). -/

namespace Sys2Proof.Machine

/-- The code of `STATUS.ERR_CAUSE` (60_exceptions.md R200). -/
def errCauseCode : ErrCause → BitVec 2
  | .none => 0b00
  | .illegalCommand => 0b01
  | .notInitialised => 0b10

/-- `STATUS` (10_state.md R28): bit 0 BUSY, 1 INIT_OK, 2 ERR, 4:3 ERR_CAUSE, 7:5 read as 0. Reading has no side effect. -/
def status (s : State) : Byte :=
  0#3 ++ errCauseCode s.errCause ++ BitVec.ofBool s.err ++ BitVec.ofBool s.initOk ++ BitVec.ofBool s.busy

/-- The first error is latched; later ones do not overwrite its cause (60_exceptions.md R201). -/
def latchError (cause : ErrCause) (s : State) : State :=
  { s with err := true, errCause := if s.err then s.errCause else cause }

/-- `vmask(v)`: `VCOM_MASK` when the polarity bit is 1, else `0x00` (42_framer.md R152). -/
def vmask (c : Config) (v : Bit) : Byte := if v then c.vcomMask else 0x00

/-- The command byte of a fast clear (30_encoding.md R79). -/
def clearCommandByte (c : Config) (v : Bit) : Byte := c.clearCommand ||| vmask c v

/-- The command byte of a full-frame write (30_encoding.md R79). -/
def writeCommandByte (c : Config) (v : Bit) : Byte := c.writeCommand ||| vmask c v

end Sys2Proof.Machine
end

