-- ==== Sys2Proof/Machine/Memory.lean ====
section
/-! DEFINITION. Machine/Memory.lean: the framebuffer storage (20_memory.md R50, R56), one byte wide, in one canonical form:
indices strictly rising, below the size, no entry equal to `unlistedByte`. -/

namespace Sys2Proof.Machine

/-- What an unlisted index reads as. The spec leaves the reset contents any value (10_state.md R21): DESIGN CHOICE, log 5. -/
def unlistedByte : Byte := 0x00

/-- The byte listed at index `a`, else `unlistedByte`. -/
def Memory.lookup : Memory → Nat → Byte
  | [], _ => unlistedByte
  | (k, b) :: m, a => if k = a then b else Memory.lookup m a

/-- Put an entry in front unless it says what an unlisted index says anyway. -/
def Memory.link (a : Nat) (v : Byte) (m : Memory) : Memory := if v = unlistedByte then m else (a, v) :: m

/-- The contents with byte `a` equal to `v`, in canonical form. -/
def Memory.store : Memory → Nat → Byte → Memory
  | [], a, v => Memory.link a v []
  | (k, b) :: m, a, v =>
    if a < k then Memory.link a v ((k, b) :: m)
    else if a = k then Memory.link a v m
    else (k, b) :: Memory.store m a v

/-- The canonical form of a framebuffer of `size` bytes. -/
abbrev Memory.Wf (size : Nat) (m : Memory) : Prop :=
  m.Pairwise (fun p q => p.1 < q.1) ∧ ∀ p ∈ m, p.1 < size ∧ p.2 ≠ unlistedByte

/-- `MemRead(i, 1)` in a framebuffer of `size` bytes (00_scope.md R10): nothing outside it (20_memory.md R58). -/
def Memory.read (size : Nat) (m : Memory) (a : Nat) : Option Byte := if a < size then some (Memory.lookup m a) else none

/-- `MemWrite(i, 1, v)` in a framebuffer of `size` bytes (00_scope.md R10). -/
def Memory.write (size : Nat) (m : Memory) (a : Nat) (v : Byte) : Option Memory :=
  if a < size then some (Memory.store m a v) else none

/-- Bytes placed from index `base` on, stopping at `size`. -/
def Memory.place (size base : Nat) (m : Memory) : List Byte → Memory
  | [] => m
  | b :: bs => Memory.place size (base + 1) (if base < size then Memory.store m base b else m) bs

/-- A framebuffer of `size` bytes whose contents are `bs` from index 0 (`FB <- FB_INIT`, 70_reset_and_hazards.md R230);
bytes past the list's end are unlisted, entries past the framebuffer's end are dropped. -/
def Memory.ofBytes (size : Nat) (bs : List Byte) : Memory := Memory.place size 0 [] bs

end Sys2Proof.Machine
end

