-- ==== Sys2Proof/Machine/Operands.lean ====
section
/-! DEFINITION. Machine/Operands.lean: from a logical coordinate to a framebuffer bit (40_framebuffer.md R100 to R104,
20_memory.md R52, R53). -/

namespace Sys2Proof.Machine

/-- The logical extents `(LW, LH)` (R100). -/
def extents (r : Rotation) (c : Config) : Nat × Nat :=
  match r with
  | .r0 => (c.w, c.h)
  | .r1 => (c.h, c.w)
  | .r2 => (c.w, c.h)
  | .r3 => (c.h, c.w)

/-- A logical coordinate is in range under rotation `r` (R101). -/
abbrev InRange (r : Rotation) (c : Config) (x y : Int) : Prop :=
  (0 ≤ x ∧ x < (extents r c).1) ∧ (0 ≤ y ∧ y < (extents r c).2)

/-- The rotation transform `T(rot, x, y)`, on integers (R102). -/
def transform (r : Rotation) (c : Config) (x y : Int) : Int × Int :=
  match r with
  | .r0 => (x, y)
  | .r1 => (c.w - 1 - y, x)
  | .r2 => (c.w - 1 - x, c.h - 1 - y)
  | .r3 => (y, c.h - 1 - x)

/-- `idx(px, py) = py * BPR + px div 8` (20_memory.md R52). -/
def pixelIndex (c : Config) (px py : Nat) : Nat := py * bpr c + px / 8

/-- `SET_LUT[k]` (R104). -/
def setMask (c : Config) (k : Nat) : Byte := c.setLut.getD k 0

/-- `CLR_LUT[k] = ~SET_LUT[k]` (R104). -/
def clrMask (c : Config) (k : Nat) : Byte := ~~~ setMask c k

/-- Where the pixel commands find logical pixel `(x, y)`: the framebuffer index `i` and the table index `k = px mod 8`
(R105, R106), or nothing when the coordinate is clipped. -/
def locate (r : Rotation) (c : Config) (x y : Int) : Option (Nat × Nat) :=
  if InRange r c x y then
    some (pixelIndex c (transform r c x y).1.toNat (transform r c x y).2.toNat, (transform r c x y).1.toNat % 8)
  else none

/-- The pixel in byte `b` that table entry `k` selects (R106). -/
def pixelOf (c : Config) (k : Nat) (b : Byte) : Bit := decide (b &&& setMask c k ≠ 0)

/-- Byte `b` with that pixel set or cleared (R105). -/
def withPixel (c : Config) (k : Nat) (v : Bit) (b : Byte) : Byte := if v then b ||| setMask c k else b &&& clrMask c k

/-- `OFF_VALUE`, what GET_PIXEL gives out of range: fixed at 0 (00_scope.md R7, 92_eei_decisions.md D13). -/
def offValue : Bit := false

end Sys2Proof.Machine
end

