-- ==== Sys2Proof/Machine/Ops.lean ====
section
/-! DEFINITION. Machine/Ops.lean: the named operations of the rules' pseudocode over State: framebuffer access, Emit,
Respond, raise Error, require_init, CLEAR_BITS and RESET. There is no return from an error (60_exceptions.md R208). -/

namespace Sys2Proof.Machine

/-- What a command answers. -/
abbrev Result := Host.Outcome State Fault Refusal

/-- A step of pseudocode that may form an index outside the framebuffer. -/
abbrev Action := State → Except Fault State

/-- `MemRead(i, 1)` (00_scope.md R10). -/
def fbRead (i : Nat) (s : State) : Except Fault Byte :=
  match Memory.read (fbBytes s.cfg) s.fb i with
  | some b => .ok b
  | none => .error .fbIndexOutOfRange

/-- `MemWrite(i, 1, v)` (00_scope.md R10). -/
def fbWrite (i : Nat) (v : Byte) : Action := fun s =>
  match Memory.write (fbBytes s.cfg) s.fb i v with
  | some m => .ok { s with fb := m }
  | none => .error .fbIndexOutOfRange

/-- CLEAR_BITS: `0xFF` to every byte, in index order (40_framebuffer.md R108). -/
def clearBits : Action := fun s => (List.range (fbBytes s.cfg)).foldlM (fun t i => fbWrite i 0xFF t) s

/-- `Emit(p, l)`: append the event and set the pin's level (00_scope.md R11). Never fails (41_serializer.md R139). -/
def emit (p : Pin) (l : Bit) (s : State) : State :=
  { s with
    trace := s.trace ++ [⟨p, l⟩]
    cs := if p = .cs then l else s.cs
    clk := if p = .clk then l else s.clk
    data := if p = .data then l else s.data }

/-- `Respond(ok, d)` (60_exceptions.md R215). -/
def respond (ok d : Bit) (s : State) : State := { s with completions := s.completions ++ [⟨ok, d⟩] }

/-- `raise Error(cause)`: latch the first cause, respond `(0, 0)`, nothing else (60_exceptions.md R201). It is the block's
whole error entry: no trap, no vector, no handler (R207). -/
def raiseError (cause : ErrCause) (s : State) : State := respond false false (latchError cause s)

/-- The end of a command: its outcome, with an index error as the machine's fault. -/
def finish : Except Fault State → Result
  | .ok s => .next s
  | .error f => .fault f

/-- `require_init()`, the prologue of every command rule, then the rest of the rule (60_exceptions.md R202). -/
def requireInit (rest : State → Result) (s : State) : Result :=
  if s.initOk then rest s else .next (raiseError .notInitialised s)

/-- `FLIP: vcom <- 1 - vcom` (42_framer.md R153). -/
def flipVcom (s : State) : State := { s with vcom := !s.vcom }

/-- `assert_cs()` (42_framer.md R150). -/
def assertCs (s : State) : State := emit .cs s.cfg.csActive s

/-- `deassert_cs()` (42_framer.md R150). -/
def deassertCs (s : State) : State := emit .cs (!s.cfg.csActive) s

/-- RESET with the draws `d` (70_reset_and_hazards.md R230 to R232), at any time: a command in progress is dropped with no
completion record (R236). What R230 does not name is left alone: the port's words and the records already delivered
(log 11), the internal registers no rule reads (log 9). -/
def applyReset (d : ResetDraw) (s : State) : State :=
  { s with
    cs := !s.cfg.csActive
    clk := false
    data := d.siReset
    busy := false
    phase := .idle
    bitCount := 0
    err := false
    errCause := .none
    initOk := d.allocOk
    fb := Memory.ofBytes (fbBytes s.cfg) d.fb
    rot := if d.allocOk then .r0 else d.rot
    vcom := if d.allocOk then s.cfg.vcomInit else d.vcom
    trace := []
    resetIn := none }

end Sys2Proof.Machine
end

