-- ==== Sys2Proof/Machine/Serializer.lean ====
section
/-! DEFINITION. Machine/Serializer.lean: TX_MSB and TX_LSB (41_serializer.md R130, R131), the same byte as a shift register
(R138), and what a trace shows on the wire (R137). -/

namespace Sys2Proof.Machine

/-- The bit numbers of a byte in the order they are sent (R130, R131). -/
def bitNumbers : BitOrder → List Nat
  | .msb => [7, 6, 5, 4, 3, 2, 1, 0]
  | .lsb => [0, 1, 2, 3, 4, 5, 6, 7]

/-- One bit group: clock low, data, clock high (R130). -/
def sendBit (b : Bit) (s : State) : State := emit .clk true (emit .data b (emit .clk false s))

/-- Send one byte in the given order: eight groups, then clock low (R130, R131). -/
def txByte (o : BitOrder) (b : Byte) (s : State) : State :=
  emit .clk false ((bitNumbers o).foldl (fun t k => sendBit (b.getLsbD k) t) s)

/-- TX_MSB(b) (R130). -/
def txMsb (b : Byte) (s : State) : State := txByte .msb b s

/-- TX_LSB(b) (R131). -/
def txLsb (b : Byte) (s : State) : State := txByte .lsb b s

/-- The events of one TX step, as a list (R130, R131; 25 of them by R132). -/
def txEvents (o : BitOrder) (b : Byte) : List PinEvent :=
  (bitNumbers o).flatMap (fun k => [⟨.clk, false⟩, ⟨.data, b.getLsbD k⟩, ⟨.clk, true⟩]) ++ [⟨.clk, false⟩]

/-- Load the shift register for a byte (R138). -/
def loadShift (o : BitOrder) (b : Byte) (s : State) : State := { s with sr := b, bitOrder := o, bitCount := 0 }

/-- The bit the shift register presents: `SR[7]` or `SR[0]` (R138). -/
def shiftOut (s : State) : Bit :=
  match s.bitOrder with
  | .msb => s.sr.getLsbD 7
  | .lsb => s.sr.getLsbD 0

/-- The register after its shift (R138). -/
def shifted (s : State) : Byte :=
  match s.bitOrder with
  | .msb => s.sr <<< 1
  | .lsb => s.sr >>> 1

/-- One bit group from the register, the shift, and `n <- n + 1` (R138). -/
def shiftBit (s : State) : State := { sendBit (shiftOut s) s with sr := shifted s, bitCount := s.bitCount + 1 }

/-- The final clock low; `n` is 0 again at the byte boundary (R138, 10_state.md R32). -/
def closeByte (s : State) : State := { emit .clk false s with bitCount := 0 }

/-- The wire bits of a trace: the level of DATA at each `Emit(CLK, 1)`, starting from level `d` (R137, log 16). -/
def wireBits (d : Bit) : List PinEvent → List Bit
  | [] => []
  | ⟨.data, l⟩ :: es => wireBits l es
  | ⟨.clk, true⟩ :: es => d :: wireBits d es
  | ⟨.clk, false⟩ :: es => wireBits d es
  | ⟨.cs, _⟩ :: es => wireBits d es

/-- The wire bits of one byte sent in the given order. -/
def byteBits (o : BitOrder) (b : Byte) : List Bit := (bitNumbers o).map (fun k => b.getLsbD k)

/-- The byte whose bits were received in the given order (R137: each group read in the order that emitted it). -/
def byteOfBits (o : BitOrder) (bits : List Bit) : Byte :=
  match o with
  | .msb => bits.foldl (fun acc x => (acc <<< 1) ||| (if x then 1 else 0)) 0
  | .lsb => bits.foldr (fun x acc => (acc <<< 1) ||| (if x then 1 else 0)) 0

/-- The bytes of a transaction: its wire bits in groups of eight, each read in its own order (R137). -/
def wireBytes : List BitOrder → List Bit → List Byte
  | [], _ => []
  | o :: os, bits => byteOfBits o (bits.take 8) :: wireBytes os (bits.drop 8)

end Sys2Proof.Machine
end

