-- ==== Sys2Proof/Machine/Display.lean ====
section
/-! DEFINITION. Machine/Display.lean: CLEAR_DISPLAY and REFRESH_DISPLAY (42_framer.md R154, R155), each one atomic transition
(00_scope.md R12). -/

namespace Sys2Proof.Machine

/-- CLEAR_DISPLAY (R154). CLEAR_BITS follows the chip-select deassert (90_conflicts.md C4). -/
def execClearDisplay (s : State) : Result :=
  requireInit (fun s => finish do
    let s := assertCs s
    let s := txMsb (clearCommandByte s.cfg s.vcom) s
    let s := txLsb 0x00 s
    let s := flipVcom s
    let s := deassertCs s
    let s ← clearBits s
    return respond true false s) s

/-- One byte of a row: step 4b (R155). -/
def sendFbByte (i : Nat) : Action := fun s => do
  let b ← fbRead i s
  return txLsb b s

/-- One row: its 1-based address, its bytes in storage order, the end-of-line trailer: step 4 (R155). -/
def sendRow (i : Nat) : Action := fun s => do
  let s := txLsb (BitVec.ofNat 8 (i + 1)) s
  let s ← (List.range (bpr s.cfg)).foldlM (fun t j => sendFbByte (i * bpr s.cfg + j) t) s
  return txLsb 0x00 s

/-- REFRESH_DISPLAY (R155). -/
def execRefreshDisplay (s : State) : Result :=
  requireInit (fun s => finish do
    let s := assertCs s
    let s := txMsb (writeCommandByte s.cfg s.vcom) s
    let s := flipVcom s
    let s ← (List.range s.cfg.h).foldlM (fun t i => sendRow i t) s
    let s := txMsb 0x00 s
    let s := deassertCs s
    return respond true false s) s

end Sys2Proof.Machine
end

