-- ==== Sys2Proof/Machine/Pixel.lean ====
section
/-! DEFINITION. Machine/Pixel.lean: SET_PIXEL, GET_PIXEL and SET_ROTATION (40_framebuffer.md R105 to R107). -/

namespace Sys2Proof.Machine

/-- SET_PIXEL x, y, v (R105). -/
def execSetPixel (x y : Int) (v : Bit) (s : State) : Result :=
  requireInit (fun s =>
    match locate s.rot s.cfg x y with
    | none => .next (respond true false s)
    | some (i, k) => finish do
        let b ← fbRead i s
        let t ← fbWrite i (withPixel s.cfg k v b) s
        return respond true false t) s

/-- GET_PIXEL x, y (R106). -/
def execGetPixel (x y : Int) (s : State) : Result :=
  requireInit (fun s =>
    match locate s.rot s.cfg x y with
    | none => .next (respond true offValue s)
    | some (i, k) => finish do
        let b ← fbRead i s
        return respond true (pixelOf s.cfg k b) s) s

/-- SET_ROTATION r (R107). -/
def execSetRotation (r : Rotation) (s : State) : Result :=
  requireInit (fun s => .next (respond true false { s with rot := r })) s

end Sys2Proof.Machine
end

