-- ==== Sys2Proof/Machine/Dispatch.lean ====
section
/-! DEFINITION. Machine/Dispatch.lean: one arm per command. -/

namespace Sys2Proof.Machine

/-- The command's own rule, with its `require_init()` prologue (60_exceptions.md R202). -/
def exec (i : Instr) (s : State) : Host.Outcome State Fault Refusal :=
  match i with
  | .setPixel x y v => Sys2Proof.Machine.execSetPixel x y v s
  | .getPixel x y => Sys2Proof.Machine.execGetPixel x y s
  | .setRotation r => Sys2Proof.Machine.execSetRotation r s
  | .clearDisplay => Sys2Proof.Machine.execClearDisplay s
  | .refreshDisplay => Sys2Proof.Machine.execRefreshDisplay s

end Sys2Proof.Machine
end

