-- ==== Sys2Proof/Machine/Framer.lean ====
section
/-! DEFINITION. Machine/Framer.lean: the framer as a state machine finer than one command (42_framer.md R160), its table
written once and run at two grains: a whole phase at a time (R160), or a bit group at a time (41_serializer.md R138). -/

namespace Sys2Proof.Machine

/-- The byte a phase transmits, and its order; nothing for a phase that transmits none (R160). -/
def phaseByte (s : State) : Option (BitOrder × Except Fault Byte) :=
  match s.phase with
  | .cCmd => some (.msb, .ok (clearCommandByte s.cfg s.vcom))
  | .cPad => some (.lsb, .ok 0x00)
  | .rCmd => some (.msb, .ok (writeCommandByte s.cfg s.vcom))
  | .rAddr => some (.lsb, .ok (BitVec.ofNat 8 (s.row + 1)))
  | .rData => some (.lsb, fbRead (s.row * bpr s.cfg + s.col) s)
  | .rEol => some (.lsb, .ok 0x00)
  | .rTrail => some (.msb, .ok 0x00)
  | .idle | .cCs | .cFlip | .cUncs | .cFill | .rCs | .rFlip | .rUncs | .done => none

/-- The action of a phase that transmits no byte (R160). -/
def phaseAction : Action := fun s =>
  match s.phase with
  | .cCs => .ok (assertCs s)
  | .rCs => .ok (assertCs s)
  | .cFlip => .ok (flipVcom s)
  | .rFlip => .ok { flipVcom s with row := 0 }
  | .cUncs => .ok (deassertCs s)
  | .rUncs => .ok (deassertCs s)
  | .cFill => clearBits s
  | .done => .ok { respond true false s with busy := false }
  | .idle | .cCmd | .cPad | .rCmd | .rAddr | .rData | .rEol | .rTrail => .ok s

/-- To the next phase, once the phase's action is complete, with the counters' updates (R160). -/
def nextPhase (s : State) : State :=
  match s.phase with
  | .idle => s
  | .cCs => { s with phase := .cCmd }
  | .cCmd => { s with phase := .cPad }
  | .cPad => { s with phase := .cFlip }
  | .cFlip => { s with phase := .cUncs }
  | .cUncs => { s with phase := .cFill }
  | .cFill => { s with phase := .done }
  | .rCs => { s with phase := .rCmd }
  | .rCmd => { s with phase := .rFlip }
  | .rFlip => { s with phase := .rAddr }
  | .rAddr => { s with col := 0, phase := .rData }
  | .rData => { s with col := s.col + 1, phase := if s.col + 1 < bpr s.cfg then .rData else .rEol }
  | .rEol => { s with row := s.row + 1, phase := if s.row + 1 < s.cfg.h then .rAddr else .rTrail }
  | .rTrail => { s with phase := .rUncs }
  | .rUncs => { s with phase := .done }
  | .done => { s with phase := .idle }

/-- One row of the table as one step, a TX action taking its 25 events at once (R160). -/
def phaseStep (s : State) : Result :=
  match phaseByte s with
  | some (o, b) => finish (b.map (fun b => nextPhase (txByte o b s)))
  | none => finish ((phaseAction s).map nextPhase)

/-- The same table with a TX action refined into the shift register (41_serializer.md R138): nine steps a byte. The first
loads the register and sends its first bit group, seven more send one group each, the last is the final clock low
(log 13). -/
def bitStep (s : State) : Result :=
  match phaseByte s with
  | some (o, b) =>
    if s.bitCount = 0 then finish (b.map (fun b => shiftBit (loadShift o b s)))
    else if s.bitCount < 8 then .next (shiftBit s)
    else .next (nextPhase (closeByte s))
  | none => finish ((phaseAction s).map nextPhase)

end Sys2Proof.Machine
end

