-- ==== Sys2Proof/Machine/Accept.lean ====
section
/-! DEFINITION. Machine/Accept.lean: what the block does with a word it accepts (60_exceptions.md R203), at command
granularity and in the finer machine of 42_framer.md R160, and what one step is made of at either grain. -/

namespace Sys2Proof.Machine

/-- `step(c)` of R203: NOT_INITIALISED first, then ILLEGAL_COMMAND, then the command's own rule. -/
def runWord (c : Word) (s : State) : Result :=
  if s.initOk then
    match decode c with
    | .ok i => exec i s
    | .error _ => .next (raiseError .illegalCommand s)
  else .next (raiseError .notInitialised s)

/-- The framer leaves IDLE for a bus command (R160). -/
def enterPhase (p : Phase) (s : State) : State := { s with phase := p, busy := true }

/-- The same word accepted by the finer machine: the two bus commands enter their first phase when the block is
initialised, and every other word completes through its own rule (R160). -/
def acceptWord (c : Word) (s : State) : Result :=
  if s.initOk then
    match decode c with
    | .ok .clearDisplay => .next (enterPhase .cCs s)
    | .ok .refreshDisplay => .next (enterPhase .rCs s)
    | .ok (.setPixel _ _ _) | .ok (.getPixel _ _) | .ok (.setRotation _) | .error _ => runWord c s
  else runWord c s

/-- One step, given what the block does with a word it accepts. A configuration outside 00_scope.md R7 is refused
(log 2). The reset input wins over everything else (70_reset_and_hazards.md R230, R236). A running command goes on, and the
port holds the next word (60_exceptions.md R212). At IDLE the block takes the word on the port, or waits for one (log 10). -/
def stepWith (take : Word → State → Result) (s : State) : Result :=
  if s.cfg.Wf then
    match s.resetIn with
    | some d => .next (applyReset d s)
    | none =>
      if s.phase = .idle then
        match s.port with
        | [] => .next s
        | c :: rest => take c { s with port := rest }
      else bitStep s
  else .refused .illegalConfiguration

/-- One step of the finer machine: a bus command takes one micro-step at a time. -/
def fineStep (s : State) : Result := stepWith acceptWord s

/-- `k` steps of one kind, stopping at the first fault or refusal. -/
def iterate (f : State → Result) : Nat → State → Result
  | 0, s => .next s
  | k + 1, s =>
    match f s with
    | .next t => iterate f k t
    | .fault r => .fault r
    | .refused r => .refused r

/-- Forget the internal registers that hold no value any rule reads at a command boundary (10_state.md R31, R32). -/
def forgetInternal (s : State) : State := { s with row := 0, col := 0, sr := 0, bitOrder := .msb }

/-- The block brought to a command boundary with the reset input not asserted, so that the next step accepts a word. -/
def atBoundary (s : State) : State := { s with phase := .idle, busy := false, bitCount := 0, resetIn := none }

/-- The state with word `c` as the one the port holds. -/
def presentWord (c : Word) (s : State) : State := { s with port := c :: s.port.tail }

end Sys2Proof.Machine
end

