-- ==== Sys2Proof/Machine/Step.lean ====
section
/-! DEFINITION. Machine/Step.lean: one step of the block, and the host presenting the word the next step runs. -/

namespace Sys2Proof.Machine

/-- One step at command granularity: each host command is one atomic transition (00_scope.md R12). A state that is inside a
command (a finer machine's) goes on by micro-steps until the command completes (log 12). -/
def step (s : State) : Host.Outcome State Fault Refusal := stepWith runWord s

/-- `s` with the word on the port and the block ready to accept it, so that the very next step runs it (log 10). -/
def State.withFetchWord (s : State) (nbits w : Nat) : State := presentWord (tableWord nbits w) (atBoundary s)

end Sys2Proof.Machine
end

