-- ==== Sys2Proof/Machine/Asm.lean ====
section
/-! DEFINITION. Machine/Asm.lean: the assembler syntax of 30_encoding.md R78, one command per line. Text is a list of
characters. What R78 leaves open (which blanks separate, the case of mnemonics and digits) is settled in log 19. -/

namespace Sys2Proof.Machine

/-- Why a line is refused. -/
inductive AsmError where
  | unknownMnemonic
  | wrongOperandCount
  | notANumber
  | operandOutOfRange
  deriving DecidableEq, Repr

/-- A blank: a space or a tab. -/
def isBlank (ch : Char) : Bool := ch == ' ' || ch == '\t'

/-- A line without the blanks at its two ends. -/
def trim (cs : List Char) : List Char := ((cs.dropWhile isBlank).reverse.dropWhile isBlank).reverse

/-- The pieces of a text between commas; a text with no comma is one piece. -/
def splitCommas : List Char → List (List Char)
  | [] => [[]]
  | ch :: cs =>
    if ch = ',' then [] :: splitCommas cs
    else match splitCommas cs with
      | [] => [[ch]]
      | p :: ps => (ch :: p) :: ps

/-- The value of one digit in a base up to 16. -/
def digitValue (base : Nat) (ch : Char) : Option Nat :=
  let n := ch.toNat
  let d := if 48 ≤ n ∧ n ≤ 57 then n - 48 else if 97 ≤ n ∧ n ≤ 102 then n - 87 else if 65 ≤ n ∧ n ≤ 70 then n - 55 else 16
  if d < base then some d else none

/-- The value of a run of digits; nothing for an empty run. -/
def digits (base : Nat) : List Char → Option Nat
  | [] => none
  | ch :: cs => (ch :: cs).foldl (fun acc c => do return (← acc) * base + (← digitValue base c)) (some 0)

/-- A number without its sign: decimal, or `0x` hexadecimal. -/
def magnitude : List Char → Option Nat
  | '0' :: 'x' :: cs => digits 16 cs
  | cs => digits 10 cs

/-- A number, optionally with a leading `-`. -/
def number : List Char → Option Int
  | '-' :: cs => (magnitude cs).map (fun n => -(n : Int))
  | cs => (magnitude cs).map (fun n => (n : Int))

/-- All operands of a line, as numbers. -/
def numbers : List (List Char) → Except AsmError (List Int)
  | [] => .ok []
  | p :: ps => do
    let z ← (number (trim p)).elim (.error .notANumber) .ok
    return z :: (← numbers ps)

/-- The pixel value an operand gives: 0 or 1. -/
def pixelOperand (z : Int) : Except AsmError Bit :=
  if z = 0 then .ok false else if z = 1 then .ok true else .error .operandOutOfRange

/-- The rotation an operand gives: 0 to 3. -/
def rotationOperand (z : Int) : Except AsmError Rotation :=
  if z = 0 then .ok .r0 else if z = 1 then .ok .r1 else if z = 2 then .ok .r2 else if z = 3 then .ok .r3
  else .error .operandOutOfRange

/-- The five mnemonics and their operands (R78). -/
def command (mnemonic : List Char) (ops : List Int) : Except AsmError Instr :=
  if mnemonic = "SET_PIXEL".toList then
    match ops with
    | [x, y, v] => (pixelOperand v).map (Instr.setPixel x y)
    | _ => .error .wrongOperandCount
  else if mnemonic = "GET_PIXEL".toList then
    match ops with
    | [x, y] => .ok (.getPixel x y)
    | _ => .error .wrongOperandCount
  else if mnemonic = "SET_ROTATION".toList then
    match ops with
    | [r] => (rotationOperand r).map Instr.setRotation
    | _ => .error .wrongOperandCount
  else if mnemonic = "CLEAR_DISPLAY".toList then
    if ops = [] then .ok .clearDisplay else .error .wrongOperandCount
  else if mnemonic = "REFRESH_DISPLAY".toList then
    if ops = [] then .ok .refreshDisplay else .error .wrongOperandCount
  else .error .unknownMnemonic

/-- One line of assembly (R78): `;` starts a comment, an empty line gives no word, and an operand outside its range is
refused rather than truncated. -/
def assembleLine (line : List Char) : Except AsmError (Option Word) :=
  let text := trim (line.takeWhile (· != ';'))
  if text = [] then .ok none
  else do
    let rest := trim (text.dropWhile (fun ch => !isBlank ch))
    let ops ← if rest = [] then .ok [] else numbers (splitCommas rest)
    let i ← command (text.takeWhile (fun ch => !isBlank ch)) ops
    (assemble i).elim (.error .operandOutOfRange) (fun c => .ok (some c))

end Sys2Proof.Machine
end

