-- ==== Sys2Proof/Safety.lean ====
section
/-! DEFINITION. Safety.lean: what counts as a good state and a disciplined trace, and the words the statements use: the
invariant of every step, the line discipline of 41_serializer.md R135, R136 and 42_framer.md R151, and the frames of
30_encoding.md R79. -/

namespace Sys2Proof.Machine

/-- The phases that transmit a byte (42_framer.md R160). -/
def transmits : Phase → Bool
  | .cCmd | .cPad | .rCmd | .rAddr | .rData | .rEol | .rTrail => true
  | .idle | .cCs | .cFlip | .cUncs | .cFill | .rCs | .rFlip | .rUncs | .done => false

/-- The phases at whose start chip select is asserted (42_framer.md R151, R160). -/
def csAsserted : Phase → Bool
  | .cCmd | .cPad | .cFlip | .cUncs | .rCmd | .rFlip | .rAddr | .rData | .rEol | .rTrail | .rUncs => true
  | .idle | .cCs | .cFill | .rCs | .done => false

/-- The phases that send a row (42_framer.md R160). -/
def inRow : Phase → Bool
  | .rAddr | .rData | .rEol => true
  | .idle | .cCs | .cCmd | .cPad | .cFlip | .cUncs | .cFill | .rCs | .rCmd | .rFlip | .rTrail | .rUncs | .done => false

/-- The invariant every step keeps, at command granularity and in the finer machine. -/
structure Inv (s : State) : Prop where
  /-- The configuration is legal (00_scope.md R7). -/
  cfg : s.cfg.Wf
  /-- The framebuffer is in canonical form and lists no byte outside it (20_memory.md R58). -/
  fb : Memory.Wf (fbBytes s.cfg) s.fb
  /-- A cause is recorded exactly when an error is (10_state.md R26). -/
  err : s.err = true ↔ s.errCause ≠ .none
  /-- ILLEGAL_COMMAND is reported only by an initialised block (60_exceptions.md R203). -/
  illegal : s.errCause = .illegalCommand → s.initOk = true
  /-- NOT_INITIALISED is reported only by a block that is not (60_exceptions.md R202). -/
  notInit : s.errCause = .notInitialised → s.initOk = false
  /-- `BUSY = 1` in every phase except IDLE (42_framer.md R160). -/
  busy : s.busy = decide (s.phase ≠ .idle)
  /-- Only an initialised block runs a bus command (42_framer.md R160). -/
  running : s.phase ≠ .idle → s.initOk = true
  /-- `n` is in `0..8`, and 0 at every byte boundary (10_state.md R32). -/
  count : s.bitCount ≤ 8
  boundary : transmits s.phase = false → s.bitCount = 0
  /-- The clock is low at every byte boundary and command boundary (41_serializer.md R135, 10_state.md R33). -/
  clk : s.clk = decide (s.bitCount ≠ 0)
  /-- Chip select is asserted exactly during a transaction (42_framer.md R151). -/
  cs : s.cs = if csAsserted s.phase then s.cfg.csActive else !s.cfg.csActive
  /-- The row and byte counters stay inside the frame (42_framer.md R160). -/
  row : inRow s.phase = true → s.row < s.cfg.h
  col : s.phase = .rData → s.col < bpr s.cfg

/-- The discipline of the three lines over a list of events, from the levels `cs` and `clk`: CLK and DATA events fall only
while chip select is asserted (R135, R151), DATA events only while CLK is low (R136), chip-select events only while CLK is
low. -/
def disciplined (active : Bit) : Bit → Bit → List PinEvent → Bool
  | _, _, [] => true
  | _, clk, ⟨.cs, l⟩ :: es => !clk && disciplined active l clk es
  | cs, clk, ⟨.data, _⟩ :: es => cs == active && !clk && disciplined active cs clk es
  | cs, _, ⟨.clk, l⟩ :: es => cs == active && disciplined active cs l es

/-- The level a pin holds after a list of events, from level `l` (10_state.md R27). -/
def levelAfter (p : Pin) (l : Bit) (es : List PinEvent) : Bit :=
  es.foldl (fun acc e => if e.pin = p then e.level else acc) l

/-- The frame of a fast clear: each byte with its bit order (30_encoding.md R79). -/
def clearFrame (s : State) : List (BitOrder × Byte) := [(.msb, clearCommandByte s.cfg s.vcom), (.lsb, 0x00)]

/-- One row of a full-frame write (30_encoding.md R79). -/
def rowFrame (s : State) (i : Nat) : List (BitOrder × Byte) :=
  (.lsb, BitVec.ofNat 8 (i + 1)) ::
    (List.range (bpr s.cfg)).map (fun j => (BitOrder.lsb, Memory.lookup s.fb (i * bpr s.cfg + j))) ++ [(.lsb, 0x00)]

/-- The frame of a full-frame write (30_encoding.md R79). -/
def refreshFrame (s : State) : List (BitOrder × Byte) :=
  (.msb, writeCommandByte s.cfg s.vcom) :: (List.range s.cfg.h).flatMap (rowFrame s) ++ [(.msb, 0x00)]

/-- The pin events of one transaction that sends a frame (42_framer.md R151). -/
def transaction (active : Bit) (frame : List (BitOrder × Byte)) : List PinEvent :=
  ⟨.cs, active⟩ :: frame.flatMap (fun p => txEvents p.1 p.2) ++ [⟨.cs, !active⟩]

/-- The block accepts the word at the head of its port at its next step: a legal configuration, phase IDLE, no reset. -/
abbrev Accepts (s : State) : Prop := s.cfg.Wf ∧ s.phase = .idle ∧ s.resetIn = none

/-- A word that decodes to one of the two bus commands (42_framer.md R153). -/
def isBusWord (c : Word) : Bool := decide (decode c = .ok .clearDisplay) || decide (decode c = .ok .refreshDisplay)

/-- The number of micro-steps of a fast clear, its acceptance included. -/
def clearMicroSteps : Nat := 24

/-- The number of micro-steps of a full-frame write, its acceptance included. -/
def refreshMicroSteps (c : Config) : Nat := 23 + 9 * (c.h * (bpr c + 2))

end Sys2Proof.Machine
end

