-- ==== Sys2Proof/Certificates/Slice0/Obligations.lean ====
section
/-! DEFINITION. Certificates/Slice0/Obligations.lean: what is claimed of the machine, from the numbered rules of spec/. Nothing
is proved here. Statements about all states hold for every legal configuration and every framebuffer, since State carries
both. -/

open Sys2Proof Sys2Proof.Machine

/-! ### Encoding -/

/-- R71, R75: no bit of an encoding is dropped. -/
def Obligations.EncodedCommandDecodesToItself : Prop :=
  ∀ i : Instr, i.wf = true → decode (encode i) = .ok i

/-- R75: a word that decodes to a command is that command's one encoding, and its operands are in range. -/
def Obligations.DecodedWordIsItsCommandsEncoding : Prop :=
  ∀ (c : Word) (i : Instr), decode c = .ok i → i.wf = true ∧ encode i = c

/-- R71, R76: the words that encode no command are exactly those with a reserved OP, or a defined OP and a reserved bit set. -/
def Obligations.IllegalWordsAreReservedEncodings : Prop :=
  ∀ c : Word, (∃ e, decode c = .error e) ↔
    ((opField c = 0#4 ∨ 6 ≤ (opField c).toNat) ∨
      (opField c = 1#4 ∧ c.getLsbD 27 = true) ∨
      (opField c = 2#4 ∧ c.extractLsb' 26 2 ≠ 0#2) ∨
      (opField c = 3#4 ∧ c.extractLsb' 2 26 ≠ 0#26) ∨
      ((opField c = 4#4 ∨ opField c = 5#4) ∧ c.extractLsb' 0 28 ≠ 0#28))

/-- 95_test_vectors.md section 2.1: words written out from the encodings of R71. The reasons' names are the model's (log 20). -/
def Obligations.WrittenWordsDecode : Prop :=
  decode 0x14012002 = .ok (.setPixel 9 2 true) ∧
  decode 0x15FFF000 = .ok (.setPixel 4095 (-4096) true) ∧
  decode 0x20020002 = .ok (.getPixel 16 2) ∧
  decode 0x23FFFFFF = .ok (.getPixel (-1) (-1)) ∧
  decode 0x30000003 = .ok (.setRotation .r3) ∧
  decode 0x40000000 = .ok .clearDisplay ∧
  decode 0x50000000 = .ok .refreshDisplay ∧
  decode 0x00000000 = .error (.reservedOp 0) ∧
  decode 0x18000000 = .error (.reservedBits 1)

/-- R78, 95_test_vectors.md section 2.1: lines of assembly and their words, and an operand outside its range refused. The
blanks and the reason's name are the model's (log 19). -/
def Obligations.AssemblyLinesGiveTheirWords : Prop :=
  assembleLine "SET_PIXEL  9, 2, 1 ; draw".toList = .ok (some 0x14012002) ∧
  assembleLine "GET_PIXEL  -1, -0x1".toList = .ok (some 0x23FFFFFF) ∧
  assembleLine "SET_ROTATION 3".toList = .ok (some 0x30000003) ∧
  assembleLine "CLEAR_DISPLAY".toList = .ok (some 0x40000000) ∧
  assembleLine "REFRESH_DISPLAY".toList = .ok (some 0x50000000) ∧
  assembleLine "; only a comment".toList = .ok none ∧
  assembleLine "GET_PIXEL  4096, 0".toList = .error .operandOutOfRange

/-! ### Accepting a word -/

/-- A step runs the decoded command: what is on the port is taken off it, and the rest is `exec`. -/
def Obligations.StepRunsTheDecodedCommand : Prop :=
  ∀ (s : State) (c : Word) (rest : List Word) (i : Instr),
    Accepts s → s.port = c :: rest → decode c = .ok i → step s = exec i { s with port := rest }

/-- R203: NOT_INITIALISED comes first, then ILLEGAL_COMMAND, then the command's own rule, which raises no error: the error
record is as it was, and the completion record has `ok` 1. -/
def Obligations.AcceptedWordFollowsThePriority : Prop :=
  ∀ (s : State) (c : Word) (rest : List Word), Accepts s → s.port = c :: rest →
    (s.initOk = false → step s = .next (raiseError .notInitialised { s with port := rest })) ∧
    (s.initOk = true → ∀ e, decode c = .error e → step s = .next (raiseError .illegalCommand { s with port := rest })) ∧
    (s.initOk = true → ∀ i, decode c = .ok i → ∃ t d, step s = exec i { s with port := rest } ∧
      exec i { s with port := rest } = .next t ∧ t.err = s.err ∧ t.errCause = s.errCause ∧
      t.completions = s.completions ++ [⟨true, d⟩])

/-- R201: the first cause is latched, the response is (0, 0), and nothing else changes. -/
def Obligations.RaisedErrorLatchesTheFirstCause : Prop :=
  ∀ (cause : ErrCause) (s : State), raiseError cause s =
    { s with
      err := true
      errCause := if s.err = true then s.errCause else cause
      completions := s.completions ++ [⟨false, false⟩] }

/-- R202: every command of a block that is not initialised raises NOT_INITIALISED. -/
def Obligations.UninitialisedBlockRejectsEveryCommand : Prop :=
  ∀ (i : Instr) (s : State), s.initOk = false → exec i s = .next (raiseError .notInitialised s)

/-- R215: every accepted word gives exactly one completion record, with `ok` false exactly on an error and `d` set only by
GET_PIXEL, and the block is at a command boundary again. -/
def Obligations.EveryAcceptedWordCompletesOnce : Prop :=
  ∀ (s : State) (c : Word) (rest : List Word), Inv s → Accepts s → s.port = c :: rest →
    ∃ t r, step s = .next t ∧ t.port = rest ∧ t.phase = .idle ∧ t.completions = s.completions ++ [r] ∧
      (r.ok = true ↔ s.initOk = true ∧ ∃ i, decode c = .ok i) ∧
      (r.d = true → ∃ x y, decode c = .ok (.getPixel x y))

/-- R212: while a command runs the port keeps its words, and only the last phase delivers the completion record. -/
def Obligations.RunningCommandHoldsThePort : Prop :=
  ∀ s t : State, s.phase ≠ .idle → s.resetIn = none → step s = .next t →
    t.port = s.port ∧ t.completions = if s.phase = .done then s.completions ++ [⟨true, false⟩] else s.completions

/-- With no word on the port the block waits. The model's choice (log 10). -/
def Obligations.IdleBlockWaitsForAWord : Prop :=
  ∀ s : State, Accepts s → s.port = [] → step s = .next s

/-! ### Errors, status, reset -/

/-- R28: the layout of STATUS. -/
def Obligations.StatusShowsItsFields : Prop :=
  ∀ s : State, (status s).getLsbD 0 = s.busy ∧ (status s).getLsbD 1 = s.initOk ∧ (status s).getLsbD 2 = s.err ∧
    (status s).extractLsb' 3 2 = (match s.errCause with | .none => 0b00#2 | .illegalCommand => 0b01#2 | .notInitialised => 0b10#2) ∧
    (status s).extractLsb' 5 3 = 0#3

/-- R26, R208: once an error is recorded, no step of either machine without a reset changes the record. -/
def Obligations.ErrorRecordIsSticky : Prop :=
  ∀ s t : State, s.err = true → s.resetIn = none → (step s = .next t ∨ fineStep s = .next t) →
    t.err = true ∧ t.errCause = s.errCause

/-- R25, R29: only reset writes INIT_OK, and nothing writes the configuration constants. -/
def Obligations.OnlyResetWritesInitOk : Prop :=
  ∀ s t : State, (step s = .next t ∨ fineStep s = .next t) →
    t.cfg = s.cfg ∧ (s.resetIn = none → t.initOk = s.initOk)

/-- R230 to R232: RESET, at any time, in either machine, with any draws: what R230 writes, whatever the block was
doing, and no new completion record. -/
def Obligations.ResetInitialisesTheBlock : Prop :=
  ∀ (s : State) (d : ResetDraw), s.cfg.Wf → s.resetIn = some d →
    ∃ t, step s = .next t ∧ fineStep s = .next t ∧
      t.cs = !s.cfg.csActive ∧ t.clk = false ∧ t.data = d.siReset ∧
      t.busy = false ∧ t.phase = .idle ∧ t.bitCount = 0 ∧
      t.err = false ∧ t.errCause = .none ∧ t.initOk = d.allocOk ∧
      t.trace = [] ∧ t.completions <+: s.completions ∧
      (d.allocOk = true → t.rot = .r0 ∧ t.vcom = s.cfg.vcomInit ∧
        ∀ a < fbBytes s.cfg, ∀ b, d.fb[a]? = some b → Memory.read (fbBytes s.cfg) t.fb a = some b)

/-- R232: after a failed initialisation every step without a reset leaves INIT_OK, the framebuffer, the rotation, the
polarity and the pins as they are, and every word raises NOT_INITIALISED. That the block waits with no word is the model's
(log 10). -/
def Obligations.FailedInitialisationLastsUntilReset : Prop :=
  ∀ s : State, Inv s → s.initOk = false → s.resetIn = none →
    step s = .next (match s.port with
      | [] => s
      | _ :: rest => raiseError .notInitialised { s with port := rest })

/-- R231 as State.reset has it. The geometry, ALLOC_OK, SI_RESET and the unlisted bytes of FB_INIT are the model's choices
(logs 3 to 5), and the default parameters, VCOM_INIT among them, are presumed (log 6). -/
def Obligations.ResetStateIsInitialised : Prop :=
  status State.reset = 0x02 ∧ State.reset.rot = .r0 ∧ State.reset.vcom = true ∧ State.reset.cs = false ∧
    State.reset.clk = false ∧ State.reset.phase = .idle ∧ State.reset.trace = [] ∧ State.reset.cfg.Wf

/-- R7, R205: a configuration outside the ranges is refused. That step is where it is refused is the model's (log 2). -/
def Obligations.IllegalConfigurationIsRefused : Prop :=
  ∀ s : State, ¬ s.cfg.Wf → step s = .refused .illegalConfiguration

/-! ### Rotation and layout -/

/-- R100. -/
def Obligations.OddRotationsSwapTheExtents : Prop :=
  ∀ (r : Rotation) (c : Config),
    (r = .r0 ∨ r = .r2 → extents r c = (c.w, c.h)) ∧ (r = .r1 ∨ r = .r3 → extents r c = (c.h, c.w))

/-- R102: the four rows of the rotation table, with their extents. -/
def Obligations.TransformIsTheRotationTable : Prop :=
  ∀ (c : Config) (x y : Int),
    extents .r0 c = (c.w, c.h) ∧ extents .r1 c = (c.h, c.w) ∧ extents .r2 c = (c.w, c.h) ∧ extents .r3 c = (c.h, c.w) ∧
    transform .r0 c x y = (x, y) ∧
    transform .r1 c x y = ((c.w : Int) - 1 - y, x) ∧
    transform .r2 c x y = ((c.w : Int) - 1 - x, (c.h : Int) - 1 - y) ∧
    transform .r3 c x y = (y, (c.h : Int) - 1 - x)

/-- R103: the transform maps in-range coordinates into the frame, and has the inverses the rule gives. -/
def Obligations.TransformIsABijectionOntoTheFrame : Prop :=
  ∀ (r : Rotation) (c : Config),
    (∀ x y : Int, InRange r c x y →
      (0 ≤ (transform r c x y).1 ∧ (transform r c x y).1 < c.w) ∧ (0 ≤ (transform r c x y).2 ∧ (transform r c x y).2 < c.h)) ∧
    (∀ px py : Int, (0 ≤ px ∧ px < c.w) → (0 ≤ py ∧ py < c.h) → ∀ x y : Int,
      (InRange r c x y ∧ transform r c x y = (px, py)) ↔
        (x, y) = match r with
          | .r0 => (px, py)
          | .r1 => (py, (c.w : Int) - 1 - px)
          | .r2 => ((c.w : Int) - 1 - px, (c.h : Int) - 1 - py)
          | .r3 => ((c.h : Int) - 1 - py, px))

/-- R51, R52: row-major, whole bytes per row, and no index outside the framebuffer. -/
def Obligations.PixelIndexIsRowMajor : Prop :=
  ∀ c : Config, c.Wf →
    (∀ px py : Nat, px < c.w → py < c.h →
      pixelIndex c px py = py * bpr c + px / 8 ∧ pixelIndex c px py = (py * c.w + px) / 8 ∧ pixelIndex c px py < fbBytes c) ∧
    (∀ py i : Nat, py < c.h → ((∃ px < c.w, pixelIndex c px py = i) ↔ py * bpr c ≤ i ∧ i ≤ py * bpr c + bpr c - 1))

/-- R104: the set masks of a legal configuration are one-hot bytes, the clear masks their complements. R7: different
entries share no bit. That the default is `1 << k` is presumed, from general knowledge (log 6). -/
def Obligations.MaskTablesAreOneHotComplements : Prop :=
  (∀ c : Config, c.Wf → ∀ j k : Nat, j < 8 → k < 8 →
    setMask c k ∈ oneHotBytes ∧ clrMask c k = ~~~ setMask c k ∧ (j ≠ k → setMask c j &&& setMask c k = 0)) ∧
  (∀ w h k : Nat, k < 8 → setMask (defaultConfigOf w h) k = 1#8 <<< k)

/-! ### Pixel commands -/

/-- R105: SET_PIXEL in all its cases. In range, one byte is rewritten, at the index and with the mask of the transformed
coordinate; every other byte reads as before, and nothing else changes but the completion record. -/
def Obligations.SetPixelWritesOnePixel : Prop :=
  ∀ (x y : Int) (v : Bit) (s : State), s.cfg.Wf → Memory.Wf (fbBytes s.cfg) s.fb →
    (s.initOk = false → exec (.setPixel x y v) s = .next (raiseError .notInitialised s)) ∧
    (s.initOk = true → ¬ InRange s.rot s.cfg x y →
      exec (.setPixel x y v) s = .next { s with completions := s.completions ++ [⟨true, false⟩] }) ∧
    (s.initOk = true → InRange s.rot s.cfg x y →
      ∃ (t : State) (px py : Nat), transform s.rot s.cfg x y = ((px : Int), (py : Int)) ∧
        exec (.setPixel x y v) s = .next t ∧
        t = { s with fb := t.fb, completions := s.completions ++ [⟨true, false⟩] } ∧
        pixelIndex s.cfg px py < fbBytes s.cfg ∧
        ∀ a, Memory.read (fbBytes s.cfg) t.fb a =
          if a = pixelIndex s.cfg px py then
            (Memory.read (fbBytes s.cfg) s.fb a).map (fun b =>
              if v = true then b ||| setMask s.cfg (px % 8) else b &&& clrMask s.cfg (px % 8))
          else Memory.read (fbBytes s.cfg) s.fb a)

/-- R106: GET_PIXEL in all its cases. Only the completion record changes. -/
def Obligations.GetPixelRespondsThePixel : Prop :=
  ∀ (x y : Int) (s : State), s.cfg.Wf →
    (s.initOk = false → exec (.getPixel x y) s = .next (raiseError .notInitialised s)) ∧
    (s.initOk = true → ¬ InRange s.rot s.cfg x y →
      exec (.getPixel x y) s = .next { s with completions := s.completions ++ [⟨true, false⟩] }) ∧
    (s.initOk = true → InRange s.rot s.cfg x y →
      ∃ (px py : Nat) (b : Byte), transform s.rot s.cfg x y = ((px : Int), (py : Int)) ∧
        Memory.read (fbBytes s.cfg) s.fb (pixelIndex s.cfg px py) = some b ∧
        exec (.getPixel x y) s =
          .next { s with completions := s.completions ++ [⟨true, decide (b &&& setMask s.cfg (px % 8) ≠ 0)⟩] })

/-- R107: SET_ROTATION writes the rotation register and nothing else. -/
def Obligations.SetRotationWritesOnlyTheRotation : Prop :=
  ∀ (r : Rotation) (s : State),
    (s.initOk = false → exec (.setRotation r) s = .next (raiseError .notInitialised s)) ∧
    (s.initOk = true → exec (.setRotation r) s = .next { s with rot := r, completions := s.completions ++ [⟨true, false⟩] })

/-- R109: the round trip, under every rotation. -/
def Obligations.WrittenPixelReadsBack : Prop :=
  ∀ (x y : Int) (v : Bit) (s : State), s.cfg.Wf → Memory.Wf (fbBytes s.cfg) s.fb → s.initOk = true →
    InRange s.rot s.cfg x y →
    ∃ t u, exec (.setPixel x y v) s = .next t ∧ exec (.getPixel x y) t = .next u ∧
      u.completions = s.completions ++ [⟨true, false⟩, ⟨true, v⟩]

/-- R110, clip invariance, in any state of an initialised block: out of range, SET_PIXEL leaves every byte and GET_PIXEL
responds the off value; the completion record (1, 0) is all that either changes. -/
def Obligations.ClippedPixelCommandsOnlyRespondOff : Prop :=
  ∀ (x y : Int) (v : Bit) (s : State), s.initOk = true → ¬ InRange s.rot s.cfg x y →
    exec (.setPixel x y v) s = .next { s with completions := s.completions ++ [⟨true, false⟩] } ∧
    exec (.getPixel x y) s = .next { s with completions := s.completions ++ [⟨true, false⟩] }

/-- R57: a SET_PIXEL leaves every other pixel: GET_PIXEL of another coordinate responds as it did before. -/
def Obligations.SetPixelLeavesOtherPixels : Prop :=
  ∀ (x y x' y' : Int) (v : Bit) (s t : State), s.cfg.Wf → Memory.Wf (fbBytes s.cfg) s.fb → s.initOk = true →
    InRange s.rot s.cfg x' y' → (x, y) ≠ (x', y') → exec (.setPixel x y v) s = .next t →
    ∃ u w d, exec (.getPixel x' y') s = .next u ∧ exec (.getPixel x' y') t = .next w ∧
      u.completions = s.completions ++ [⟨true, d⟩] ∧ w.completions = t.completions ++ [⟨true, d⟩]

/-- R102, R107: a pixel written under one rotation is read under another at the coordinate that names the same physical
pixel, since SET_ROTATION moves nothing. -/
def Obligations.RotationsReachTheSamePhysicalPixel : Prop :=
  ∀ (x y x' y' : Int) (r : Rotation) (v : Bit) (s : State), s.cfg.Wf → Memory.Wf (fbBytes s.cfg) s.fb → s.initOk = true →
    InRange s.rot s.cfg x y → InRange r s.cfg x' y' → transform r s.cfg x' y' = transform s.rot s.cfg x y →
    ∃ t u w, exec (.setPixel x y v) s = .next t ∧ exec (.setRotation r) t = .next u ∧ exec (.getPixel x' y') u = .next w ∧
      w.completions = s.completions ++ [⟨true, false⟩, ⟨true, false⟩, ⟨true, v⟩]

/-! ### Serializer and lines -/

/-- R132: 25 events, the clock low and the last bit on DATA at the end; nothing else changes. -/
def Obligations.TransmitStepEmits25Events : Prop :=
  ∀ (o : BitOrder) (b : Byte) (s : State),
    (txEvents o b).length = 25 ∧
    txByte o b s =
      { s with
        trace := s.trace ++ txEvents o b
        clk := false
        data := match o with | .msb => b.getLsbD 0 | .lsb => b.getLsbD 7 }

/-- R138: loaded, shifted out bit by bit and closed, the shift register sends the events of R130 and R131. -/
def Obligations.ShiftRegisterSendsTheSameEvents : Prop :=
  ∀ (o : BitOrder) (b : Byte) (s : State), ∃ sr : Byte,
    closeByte (shiftBit^[8] (loadShift o b s)) = { txByte o b s with sr := sr, bitOrder := o, bitCount := 0 }

/-- R27: each line holds the level of the last event emitted to it, whatever the step, a reset apart. -/
def Obligations.PinsHoldTheirLastEmittedLevel : Prop :=
  ∀ s t : State, s.resetIn = none → (step s = .next t ∨ fineStep s = .next t) →
    ∃ es, t.trace = s.trace ++ es ∧ t.cs = levelAfter .cs s.cs es ∧ t.clk = levelAfter .clk s.clk es ∧
      t.data = levelAfter .data s.data es

/-- R135, R136, R151: from a command boundary, every command's events keep the discipline of the lines, and end with chip
select deasserted and the clock low. -/
def Obligations.CommandsKeepTheLineDiscipline : Prop :=
  ∀ (i : Instr) (s : State), s.cfg.Wf → s.cs = !s.cfg.csActive → s.clk = false →
    ∃ t es, exec i s = .next t ∧ t.trace = s.trace ++ es ∧ disciplined s.cfg.csActive s.cs s.clk es = true ∧
      t.cs = !s.cfg.csActive ∧ t.clk = false

/-! ### Display commands -/

/-- R154: CLEAR_DISPLAY in all its cases. -/
def Obligations.ClearDisplaySendsItsFrameAndFills : Prop :=
  ∀ s : State, s.cfg.Wf → Memory.Wf (fbBytes s.cfg) s.fb →
    (s.initOk = false → exec .clearDisplay s = .next (raiseError .notInitialised s)) ∧
    (s.initOk = true → ∃ t, exec .clearDisplay s = .next t ∧
      t = { s with
        vcom := !s.vcom
        fb := t.fb
        cs := !s.cfg.csActive
        clk := false
        data := false
        trace := s.trace ++ (⟨.cs, s.cfg.csActive⟩ ::
          txEvents .msb (s.cfg.clearCommand ||| (if s.vcom = true then s.cfg.vcomMask else 0x00)) ++
          txEvents .lsb 0x00 ++ [⟨.cs, !s.cfg.csActive⟩])
        completions := s.completions ++ [⟨true, false⟩] } ∧
      ∀ a < fbBytes s.cfg, Memory.read (fbBytes s.cfg) t.fb a = some 0xFF)

/-- R155: REFRESH_DISPLAY in all its cases. -/
def Obligations.RefreshDisplaySendsTheWholeFrame : Prop :=
  ∀ s : State, s.cfg.Wf →
    (s.initOk = false → exec .refreshDisplay s = .next (raiseError .notInitialised s)) ∧
    (s.initOk = true → exec .refreshDisplay s = .next
      { s with
        vcom := !s.vcom
        cs := !s.cfg.csActive
        clk := false
        data := false
        trace := s.trace ++ (⟨.cs, s.cfg.csActive⟩ ::
          txEvents .msb (s.cfg.writeCommand ||| (if s.vcom = true then s.cfg.vcomMask else 0x00)) ++
          (List.range s.cfg.h).flatMap (fun i =>
            txEvents .lsb (BitVec.ofNat 8 (i + 1)) ++
            (List.range (bpr s.cfg)).flatMap (fun j => txEvents .lsb (Memory.lookup s.fb (i * bpr s.cfg + j))) ++
            txEvents .lsb 0x00) ++
          txEvents .msb 0x00 ++ [⟨.cs, !s.cfg.csActive⟩])
        completions := s.completions ++ [⟨true, false⟩] })

/-- R111: after CLEAR_BITS, every in-range GET_PIXEL responds 1, under every rotation. -/
def Obligations.ClearedPixelsReadOne : Prop :=
  ∀ (r : Rotation) (x y : Int) (s : State), s.cfg.Wf → Memory.Wf (fbBytes s.cfg) s.fb → s.initOk = true →
    InRange r s.cfg x y →
    ∃ t u, clearBits s = .ok t ∧ exec (.getPixel x y) { t with rot := r } = .next u ∧
      u.completions = s.completions ++ [⟨true, true⟩]

/-- R158: the bytes a fast clear puts on the wire, two and no more, and the cleared state after it. -/
def Obligations.ClearDisplayIsConsistent : Prop :=
  ∀ s : State, s.cfg.Wf → Memory.Wf (fbBytes s.cfg) s.fb → s.initOk = true →
    ∃ t es, exec .clearDisplay s = .next t ∧ t.trace = s.trace ++ es ∧
      (wireBits s.data es).length = 16 ∧
      wireBytes [.msb, .lsb] (wireBits s.data es) = [s.cfg.clearCommand ||| vmask s.cfg s.vcom, 0x00] ∧
      ∀ x y : Int, InRange t.rot t.cfg x y →
        ∃ u, exec (.getPixel x y) t = .next u ∧ u.completions = t.completions ++ [⟨true, true⟩]

/-- R156: the frame sizes of what the two commands send, in pin events and, counted on the wire at eight bits a byte
(R137), in bytes. -/
def Obligations.FrameSizes : Prop :=
  ∀ s : State, s.cfg.Wf → s.initOk = true →
    ∃ t u es fs, exec .clearDisplay s = .next t ∧ t.trace = s.trace ++ es ∧
      es.length = 52 ∧ (wireBits s.data es).length = 8 * 2 ∧
      exec .refreshDisplay s = .next u ∧ u.trace = s.trace ++ fs ∧
      fs.length = 25 * (s.cfg.h * (bpr s.cfg + 2) + 2) + 2 ∧
      (wireBits s.data fs).length = 8 * (s.cfg.h * (bpr s.cfg + 2) + 2)

/-- R79, R137: the bytes a full-frame write puts on the wire, each read in its own order, are the bytes of its frame. -/
def Obligations.RefreshFrameIsReadOffTheWire : Prop :=
  ∀ s : State, s.cfg.Wf → s.initOk = true →
    ∃ t es, exec .refreshDisplay s = .next t ∧ t.trace = s.trace ++ es ∧
      (wireBits s.data es).length = 8 * (refreshFrame s).length ∧
      wireBytes ((refreshFrame s).map (·.1)) (wireBits s.data es) = (refreshFrame s).map (·.2)

/-- R155: what REFRESH_DISPLAY sends and leaves does not depend on the rotation. -/
def Obligations.RefreshIgnoresTheRotation : Prop :=
  ∀ (s : State) (r : Rotation), s.cfg.Wf →
    ∃ t, exec .refreshDisplay s = .next t ∧ exec .refreshDisplay { s with rot := r } = .next { t with rot := r }

/-- R55, R79: under the default mask table (presumed, log 6), the pixels of physical row `py` leave in increasing column
order: on the wire of a refresh, after the command byte and the rows before it (`BPR + 2` bytes each), comes the row's
1-based address, and the `W` bits after the address are the row's pixels. -/
def Obligations.RowPixelsLeaveInColumnOrder : Prop :=
  ∀ (s : State) (py : Nat), s.cfg.Wf → s.initOk = true → s.cfg.setLut = defaultSetLut → py < s.cfg.h →
    ∃ t es, exec .refreshDisplay s = .next t ∧ t.trace = s.trace ++ es ∧
      ((wireBits s.data es).drop (8 * (1 + py * (bpr s.cfg + 2)))).take 8 = byteBits .lsb (BitVec.ofNat 8 (py + 1)) ∧
      ((wireBits s.data es).drop (8 * (1 + py * (bpr s.cfg + 2) + 1))).take s.cfg.w =
        (List.range s.cfg.w).map fun px => pixelOf s.cfg (px % 8) (Memory.lookup s.fb (pixelIndex s.cfg px py))

/-! ### Polarity -/

/-- R153: at command granularity the polarity bit flips exactly on an accepted bus command of an initialised block; in the
finer machine exactly in the two FLIP phases. -/
def Obligations.PolarityFlipsExactlyOncePerBusCommand : Prop :=
  ∀ s t : State, s.resetIn = none →
    (step s = .next t → s.phase = .idle →
      t.vcom = (s.vcom ^^ (s.initOk && match s.port with | [] => false | c :: _ => isBusWord c))) ∧
    (fineStep s = .next t → t.vcom = (s.vcom ^^ decide (s.phase = .cFlip ∨ s.phase = .rFlip)))

/-- R157: in any run of words, commands and errors mixed, the n-th bus command carries the polarity
`vcom_0 XOR ((n - 1) mod 2)` in its command byte, and the polarity after it is `vcom_0 XOR (n mod 2)`. -/
def Obligations.PolarityAlternates : Prop :=
  ∀ (s : State) (pre post : List Word) (c : Word), Inv s → Accepts s → s.initOk = true →
    s.port = pre ++ c :: post → isBusWord c = true →
    ∃ t u es, iterate step pre.length s = .next t ∧
      t.vcom = (s.vcom ^^ decide (pre.countP isBusWord % 2 = 1)) ∧
      step t = .next u ∧ u.port = post ∧ u.trace = t.trace ++ es ∧
      wireBytes [.msb] (wireBits t.data es) =
        [(if decode c = .ok .clearDisplay then s.cfg.clearCommand else s.cfg.writeCommand) |||
          vmask s.cfg (s.vcom ^^ decide (pre.countP isBusWord % 2 = 1))] ∧
      u.vcom = (s.vcom ^^ decide ((pre.countP isBusWord + 1) % 2 = 1))

/-! ### The finer machine -/

/-- R160: the phase table, one phase a step, gives what the pseudocode of R154 and R155 gives, the internal registers that no
rule reads at a boundary apart. -/
def Obligations.PhaseTableRunsTheBusCommands : Prop :=
  ∀ s : State, s.cfg.Wf → s.phase = .idle → s.busy = false → s.initOk = true →
    (∃ t u, exec .clearDisplay s = .next t ∧ iterate phaseStep 7 (enterPhase .cCs s) = .next u ∧
      forgetInternal u = forgetInternal t) ∧
    (∃ t u, exec .refreshDisplay s = .next t ∧
      iterate phaseStep (6 + s.cfg.h * (bpr s.cfg + 2)) (enterPhase .rCs s) = .next u ∧
      forgetInternal u = forgetInternal t)

/-- R138, R160, R161: the finer machine, bit group by bit group, ends a bus command in the state the atomic step gives, the
internal registers that no rule reads at a boundary apart. The number of micro-steps is the model's (log 13). -/
def Obligations.MicroStepsRefineTheAtomicCommand : Prop :=
  ∀ (s : State) (c : Word) (rest : List Word), Inv s → Accepts s → s.initOk = true → s.port = c :: rest →
    (decode c = .ok .clearDisplay → ∃ t u, step s = .next t ∧ iterate fineStep clearMicroSteps s = .next u ∧
      forgetInternal u = forgetInternal t) ∧
    (decode c = .ok .refreshDisplay → ∃ t u, step s = .next t ∧ iterate fineStep (refreshMicroSteps s.cfg) s = .next u ∧
      forgetInternal u = forgetInternal t)

/-! ### Invariants -/

/-- The invariant holds at reset. -/
def Obligations.InvariantHoldsAtReset : Prop := Inv State.reset

/-- R10 to R33, R58, R135, R151, R160: a step from a state with the invariant always answers a next state (no framebuffer
index is ever out of range), and keeps the invariant. -/
def Obligations.StepAnswersAndKeepsTheInvariant : Prop :=
  ∀ s : State, Inv s → ∃ t, step s = .next t ∧ Inv t

/-- The same of the finer machine, at every micro-step. -/
def Obligations.FineStepAnswersAndKeepsTheInvariant : Prop :=
  ∀ s : State, Inv s → ∃ t, fineStep s = .next t ∧ Inv t
end

