-- ==== Sys2Proof/Laws/Memory.lean ====
section
/-! SUPPORT. Laws/Memory.lean: a stored byte reads back, every other byte is unchanged, and every memory operation keeps the
canonical form. -/

namespace Sys2Proof.Machine

/-- An index below every listed one is unlisted. -/
theorem lookup_of_below {m : Memory} {a : Nat} (h : ∀ p ∈ m, a < p.1) : Memory.lookup m a = unlistedByte := by
  induction m with
  | nil => rfl
  | cons p m ih =>
    obtain ⟨k, b⟩ := p
    have hk : a < k := h (k, b) (by simp)
    simp [Memory.lookup, show k ≠ a by omega, ih (fun q hq => h q (by simp [hq]))]

theorem lookup_link_self {a : Nat} {v : Byte} {m : Memory} (h : ∀ p ∈ m, a < p.1) :
    Memory.lookup (Memory.link a v m) a = v := by
  unfold Memory.link
  split
  · next hv => rw [lookup_of_below h, hv]
  · simp [Memory.lookup]

theorem lookup_link_other {a c : Nat} {v : Byte} {m : Memory} (h : c ≠ a) :
    Memory.lookup (Memory.link a v m) c = Memory.lookup m c := by
  unfold Memory.link
  split
  · rfl
  · simp [Memory.lookup, Ne.symm h]

/-- A read of the stored index gives the stored byte. -/
theorem lookup_store_self {m : Memory} (hm : m.Pairwise (fun p q => p.1 < q.1)) (a : Nat) (v : Byte) :
    Memory.lookup (Memory.store m a v) a = v := by
  induction m with
  | nil => exact lookup_link_self (by simp)
  | cons p m ih =>
    obtain ⟨k, b⟩ := p
    obtain ⟨hk, hm⟩ := List.pairwise_cons.mp hm
    unfold Memory.store
    split
    · next hlt =>
      refine lookup_link_self fun q hq => ?_
      obtain rfl | hq := List.mem_cons.mp hq
      · exact hlt
      · exact hlt.trans (hk q hq)
    · split
      · next heq => subst heq; exact lookup_link_self hk
      · next hne => simp [Memory.lookup, Ne.symm hne, ih hm]

/-- A read of any other index is unchanged. -/
theorem lookup_store_other {m : Memory} {a c : Nat} (h : c ≠ a) (v : Byte) :
    Memory.lookup (Memory.store m a v) c = Memory.lookup m c := by
  induction m with
  | nil => exact lookup_link_other h
  | cons p m ih =>
    obtain ⟨k, b⟩ := p
    unfold Memory.store
    split
    · exact lookup_link_other h
    · split
      · next heq => subst heq; rw [lookup_link_other h]; simp [Memory.lookup, Ne.symm h]
      · simp [Memory.lookup, ih]

/-- The entries of a linked memory. -/
theorem mem_link {a : Nat} {v : Byte} {m : Memory} {p : Host.Cell} (h : p ∈ Memory.link a v m) :
    p ∈ m ∨ (p = (a, v) ∧ v ≠ unlistedByte) := by
  unfold Memory.link at h
  split at h
  · exact .inl h
  · next hv => exact (List.mem_cons.mp h).symm.imp_right fun hp => ⟨hp, hv⟩

theorem pairwise_link {a : Nat} {v : Byte} {m : Memory} (hm : m.Pairwise (fun p q => p.1 < q.1)) (h : ∀ p ∈ m, a < p.1) :
    (Memory.link a v m).Pairwise (fun p q => p.1 < q.1) := by
  unfold Memory.link
  split
  · exact hm
  · exact List.pairwise_cons.mpr ⟨h, hm⟩

/-- The entries of a stored-to memory. -/
theorem mem_store {m : Memory} {a : Nat} {v : Byte} {p : Host.Cell} (h : p ∈ Memory.store m a v) :
    p ∈ m ∨ (p = (a, v) ∧ v ≠ unlistedByte) := by
  induction m with
  | nil => exact mem_link h
  | cons q m ih =>
    obtain ⟨k, b⟩ := q
    unfold Memory.store at h
    split at h
    · exact mem_link h
    · split at h
      · exact (mem_link h).imp_left (List.mem_cons_of_mem _)
      · obtain rfl | h := List.mem_cons.mp h
        · exact .inl (by simp)
        · exact (ih h).imp_left (List.mem_cons_of_mem _)

theorem pairwise_store {m : Memory} (hm : m.Pairwise (fun p q => p.1 < q.1)) (a : Nat) (v : Byte) :
    (Memory.store m a v).Pairwise (fun p q => p.1 < q.1) := by
  induction m with
  | nil => exact pairwise_link .nil (by simp)
  | cons q m ih =>
    obtain ⟨k, b⟩ := q
    obtain ⟨hk, hm'⟩ := List.pairwise_cons.mp hm
    unfold Memory.store
    split
    · next hlt =>
      refine pairwise_link hm fun p hp => ?_
      obtain rfl | hp := List.mem_cons.mp hp
      · exact hlt
      · exact hlt.trans (hk p hp)
    · split
      · next heq => subst heq; exact pairwise_link hm' hk
      · next hge hne =>
        refine List.pairwise_cons.mpr ⟨fun p hp => ?_, ih hm'⟩
        obtain hp | ⟨rfl, -⟩ := mem_store hp
        · exact hk p hp
        · simp only; omega

/-- A store keeps the canonical form. -/
theorem store_wf {size : Nat} {m : Memory} (hm : Memory.Wf size m) {a : Nat} (ha : a < size) (v : Byte) :
    Memory.Wf size (Memory.store m a v) := by
  refine ⟨pairwise_store hm.1 a v, fun p hp => ?_⟩
  obtain hp | ⟨rfl, hv⟩ := mem_store hp
  · exact hm.2 p hp
  · exact ⟨ha, hv⟩

theorem nil_wf (size : Nat) : Memory.Wf size [] := ⟨.nil, by simp⟩

theorem place_wf {size : Nat} (bs : List Byte) : ∀ {base : Nat} {m : Memory}, Memory.Wf size m →
    Memory.Wf size (Memory.place size base m bs) := by
  induction bs with
  | nil => exact fun hm => hm
  | cons b bs ih =>
    intro base m hm
    refine ih ?_
    split
    · next h => exact store_wf hm h b
    · exact hm

theorem lookup_place {size : Nat} (bs : List Byte) : ∀ {base : Nat} {m : Memory}, Memory.Wf size m → ∀ {a : Nat}, a < size →
    Memory.lookup (Memory.place size base m bs) a =
      if base ≤ a ∧ a < base + bs.length then bs.getD (a - base) unlistedByte else Memory.lookup m a := by
  induction bs with
  | nil => intro base m _ a _; simp [Memory.place]
  | cons b bs ih =>
    intro base m hm a ha
    have hm' : Memory.Wf size (if base < size then Memory.store m base b else m) := by
      split
      · next h => exact store_wf hm h b
      · exact hm
    have hl : Memory.lookup (if base < size then Memory.store m base b else m) a =
        if a = base then b else Memory.lookup m a := by
      by_cases hab : a = base
      · subst hab; simp [ha, lookup_store_self hm.1]
      · simp only [hab, if_false]
        split
        · exact lookup_store_other hab b
        · rfl
    simp only [Memory.place, List.length_cons]
    rw [ih hm' ha, hl]
    obtain h | h | h := Nat.lt_trichotomy a base
    · simp [show ¬ base + 1 ≤ a by omega, show ¬ base ≤ a by omega, show a ≠ base by omega]
    · simp [h]
    · have hs : a - base = (a - (base + 1)) + 1 := by omega
      rw [hs, List.getD_cons_succ]
      by_cases h2 : a < base + 1 + bs.length
      · simp [h2, show base + 1 ≤ a by omega, show base ≤ a by omega, show a < base + (bs.length + 1) by omega]
      · simp [h2, show a ≠ base by omega, show ¬ a < base + (bs.length + 1) by omega]

/-- A memory built from any bytes at all is in canonical form. -/
theorem ofBytes_wf (size : Nat) (bs : List Byte) : Memory.Wf size (Memory.ofBytes size bs) := place_wf bs (nil_wf size)

/-- A memory built from bytes reads as those bytes, then as unlisted. -/
theorem read_ofBytes {size a : Nat} (bs : List Byte) (ha : a < size) :
    Memory.read size (Memory.ofBytes size bs) a = some (bs.getD a unlistedByte) := by
  rw [Memory.read, if_pos ha, Memory.ofBytes, lookup_place bs (nil_wf size) ha]
  by_cases h : a < bs.length
  · simp [h]
  · simp [h, Memory.lookup]

/-- Two canonical memories that read alike everywhere are equal data. -/
theorem eq_of_lookup_eq {m n : Memory} (hm : m.Pairwise (fun p q => p.1 < q.1)) (hn : n.Pairwise (fun p q => p.1 < q.1))
    (hm' : ∀ p ∈ m, p.2 ≠ unlistedByte) (hn' : ∀ p ∈ n, p.2 ≠ unlistedByte)
    (h : ∀ a, Memory.lookup m a = Memory.lookup n a) : m = n := by
  induction m generalizing n with
  | nil =>
    cases n with
    | nil => rfl
    | cons q n => exact absurd (by simpa [Memory.lookup] using (h q.1).symm) (hn' q (by simp))
  | cons p m ih =>
    cases n with
    | nil => exact absurd (by simpa [Memory.lookup] using h p.1) (hm' p (by simp))
    | cons q n =>
      obtain ⟨pk, pb⟩ := p
      obtain ⟨qk, qb⟩ := q
      obtain ⟨hpk, hm2⟩ := List.pairwise_cons.mp hm
      obtain ⟨hqk, hn2⟩ := List.pairwise_cons.mp hn
      have hkey : pk = qk := by
        obtain hlt | heq | hlt := Nat.lt_trichotomy pk qk
        · have := h pk
          rw [lookup_of_below (m := (qk, qb) :: n) (a := pk) (by
            intro r hr
            obtain rfl | hr := List.mem_cons.mp hr
            · exact hlt
            · exact hlt.trans (hqk r hr))] at this
          exact absurd (by simpa [Memory.lookup] using this) (hm' (pk, pb) (by simp))
        · exact heq
        · have := h qk
          rw [lookup_of_below (m := (pk, pb) :: m) (a := qk) (by
            intro r hr
            obtain rfl | hr := List.mem_cons.mp hr
            · exact hlt
            · exact hlt.trans (hpk r hr))] at this
          exact absurd (by simpa [Memory.lookup] using this.symm) (hn' (qk, qb) (by simp))
      subst hkey
      have hb : pb = qb := by simpa [Memory.lookup] using h pk
      subst hb
      congr 1
      refine ih hm2 hn2 (fun r hr => hm' r (by simp [hr])) (fun r hr => hn' r (by simp [hr])) fun a => ?_
      have := h a
      by_cases hak : pk = a
      · subst hak
        rw [lookup_of_below hpk, lookup_of_below hqk]
      · simpa [Memory.lookup, hak] using this

end Sys2Proof.Machine
end

