-- ==== Sys2Proof/Laws/State.lean ====
section
/-! SUPPORT. Laws/State.lean: one lemma per field per named update of State, each true by rfl, so that no proof unfolds a
record update; and State.reset as the RESET operation leaves it. -/

namespace Sys2Proof.Machine

section
variable (s : State)

@[simp] theorem emit_cfg (p : Pin) (l : Bit) : (emit p l s).cfg = s.cfg := rfl
@[simp] theorem emit_fb (p : Pin) (l : Bit) : (emit p l s).fb = s.fb := rfl
@[simp] theorem emit_rot (p : Pin) (l : Bit) : (emit p l s).rot = s.rot := rfl
@[simp] theorem emit_vcom (p : Pin) (l : Bit) : (emit p l s).vcom = s.vcom := rfl
@[simp] theorem emit_initOk (p : Pin) (l : Bit) : (emit p l s).initOk = s.initOk := rfl
@[simp] theorem emit_err (p : Pin) (l : Bit) : (emit p l s).err = s.err := rfl
@[simp] theorem emit_errCause (p : Pin) (l : Bit) : (emit p l s).errCause = s.errCause := rfl
@[simp] theorem emit_cs (p : Pin) (l : Bit) : (emit p l s).cs = if p = .cs then l else s.cs := rfl
@[simp] theorem emit_clk (p : Pin) (l : Bit) : (emit p l s).clk = if p = .clk then l else s.clk := rfl
@[simp] theorem emit_data (p : Pin) (l : Bit) : (emit p l s).data = if p = .data then l else s.data := rfl
@[simp] theorem emit_trace (p : Pin) (l : Bit) : (emit p l s).trace = s.trace ++ [⟨p, l⟩] := rfl
@[simp] theorem emit_completions (p : Pin) (l : Bit) : (emit p l s).completions = s.completions := rfl
@[simp] theorem emit_busy (p : Pin) (l : Bit) : (emit p l s).busy = s.busy := rfl
@[simp] theorem emit_phase (p : Pin) (l : Bit) : (emit p l s).phase = s.phase := rfl
@[simp] theorem emit_row (p : Pin) (l : Bit) : (emit p l s).row = s.row := rfl
@[simp] theorem emit_col (p : Pin) (l : Bit) : (emit p l s).col = s.col := rfl
@[simp] theorem emit_sr (p : Pin) (l : Bit) : (emit p l s).sr = s.sr := rfl
@[simp] theorem emit_bitCount (p : Pin) (l : Bit) : (emit p l s).bitCount = s.bitCount := rfl
@[simp] theorem emit_bitOrder (p : Pin) (l : Bit) : (emit p l s).bitOrder = s.bitOrder := rfl
@[simp] theorem emit_port (p : Pin) (l : Bit) : (emit p l s).port = s.port := rfl
@[simp] theorem emit_resetIn (p : Pin) (l : Bit) : (emit p l s).resetIn = s.resetIn := rfl

@[simp] theorem respond_cfg (ok d : Bit) : (respond ok d s).cfg = s.cfg := rfl
@[simp] theorem respond_fb (ok d : Bit) : (respond ok d s).fb = s.fb := rfl
@[simp] theorem respond_rot (ok d : Bit) : (respond ok d s).rot = s.rot := rfl
@[simp] theorem respond_vcom (ok d : Bit) : (respond ok d s).vcom = s.vcom := rfl
@[simp] theorem respond_initOk (ok d : Bit) : (respond ok d s).initOk = s.initOk := rfl
@[simp] theorem respond_err (ok d : Bit) : (respond ok d s).err = s.err := rfl
@[simp] theorem respond_errCause (ok d : Bit) : (respond ok d s).errCause = s.errCause := rfl
@[simp] theorem respond_cs (ok d : Bit) : (respond ok d s).cs = s.cs := rfl
@[simp] theorem respond_clk (ok d : Bit) : (respond ok d s).clk = s.clk := rfl
@[simp] theorem respond_data (ok d : Bit) : (respond ok d s).data = s.data := rfl
@[simp] theorem respond_trace (ok d : Bit) : (respond ok d s).trace = s.trace := rfl
@[simp] theorem respond_completions (ok d : Bit) : (respond ok d s).completions = s.completions ++ [⟨ok, d⟩] := rfl
@[simp] theorem respond_busy (ok d : Bit) : (respond ok d s).busy = s.busy := rfl
@[simp] theorem respond_phase (ok d : Bit) : (respond ok d s).phase = s.phase := rfl
@[simp] theorem respond_row (ok d : Bit) : (respond ok d s).row = s.row := rfl
@[simp] theorem respond_col (ok d : Bit) : (respond ok d s).col = s.col := rfl
@[simp] theorem respond_sr (ok d : Bit) : (respond ok d s).sr = s.sr := rfl
@[simp] theorem respond_bitCount (ok d : Bit) : (respond ok d s).bitCount = s.bitCount := rfl
@[simp] theorem respond_bitOrder (ok d : Bit) : (respond ok d s).bitOrder = s.bitOrder := rfl
@[simp] theorem respond_port (ok d : Bit) : (respond ok d s).port = s.port := rfl
@[simp] theorem respond_resetIn (ok d : Bit) : (respond ok d s).resetIn = s.resetIn := rfl

@[simp] theorem latchError_cfg (e : ErrCause) : (latchError e s).cfg = s.cfg := rfl
@[simp] theorem latchError_fb (e : ErrCause) : (latchError e s).fb = s.fb := rfl
@[simp] theorem latchError_rot (e : ErrCause) : (latchError e s).rot = s.rot := rfl
@[simp] theorem latchError_vcom (e : ErrCause) : (latchError e s).vcom = s.vcom := rfl
@[simp] theorem latchError_initOk (e : ErrCause) : (latchError e s).initOk = s.initOk := rfl
@[simp] theorem latchError_err (e : ErrCause) : (latchError e s).err = true := rfl
@[simp] theorem latchError_errCause (e : ErrCause) : (latchError e s).errCause = if s.err then s.errCause else e := rfl
@[simp] theorem latchError_cs (e : ErrCause) : (latchError e s).cs = s.cs := rfl
@[simp] theorem latchError_clk (e : ErrCause) : (latchError e s).clk = s.clk := rfl
@[simp] theorem latchError_data (e : ErrCause) : (latchError e s).data = s.data := rfl
@[simp] theorem latchError_trace (e : ErrCause) : (latchError e s).trace = s.trace := rfl
@[simp] theorem latchError_completions (e : ErrCause) : (latchError e s).completions = s.completions := rfl
@[simp] theorem latchError_busy (e : ErrCause) : (latchError e s).busy = s.busy := rfl
@[simp] theorem latchError_phase (e : ErrCause) : (latchError e s).phase = s.phase := rfl
@[simp] theorem latchError_row (e : ErrCause) : (latchError e s).row = s.row := rfl
@[simp] theorem latchError_col (e : ErrCause) : (latchError e s).col = s.col := rfl
@[simp] theorem latchError_sr (e : ErrCause) : (latchError e s).sr = s.sr := rfl
@[simp] theorem latchError_bitCount (e : ErrCause) : (latchError e s).bitCount = s.bitCount := rfl
@[simp] theorem latchError_bitOrder (e : ErrCause) : (latchError e s).bitOrder = s.bitOrder := rfl
@[simp] theorem latchError_port (e : ErrCause) : (latchError e s).port = s.port := rfl
@[simp] theorem latchError_resetIn (e : ErrCause) : (latchError e s).resetIn = s.resetIn := rfl

@[simp] theorem flipVcom_cfg : (flipVcom s).cfg = s.cfg := rfl
@[simp] theorem flipVcom_fb : (flipVcom s).fb = s.fb := rfl
@[simp] theorem flipVcom_rot : (flipVcom s).rot = s.rot := rfl
@[simp] theorem flipVcom_vcom : (flipVcom s).vcom = !s.vcom := rfl
@[simp] theorem flipVcom_initOk : (flipVcom s).initOk = s.initOk := rfl
@[simp] theorem flipVcom_err : (flipVcom s).err = s.err := rfl
@[simp] theorem flipVcom_errCause : (flipVcom s).errCause = s.errCause := rfl
@[simp] theorem flipVcom_cs : (flipVcom s).cs = s.cs := rfl
@[simp] theorem flipVcom_clk : (flipVcom s).clk = s.clk := rfl
@[simp] theorem flipVcom_data : (flipVcom s).data = s.data := rfl
@[simp] theorem flipVcom_trace : (flipVcom s).trace = s.trace := rfl
@[simp] theorem flipVcom_completions : (flipVcom s).completions = s.completions := rfl
@[simp] theorem flipVcom_busy : (flipVcom s).busy = s.busy := rfl
@[simp] theorem flipVcom_phase : (flipVcom s).phase = s.phase := rfl
@[simp] theorem flipVcom_row : (flipVcom s).row = s.row := rfl
@[simp] theorem flipVcom_col : (flipVcom s).col = s.col := rfl
@[simp] theorem flipVcom_sr : (flipVcom s).sr = s.sr := rfl
@[simp] theorem flipVcom_bitCount : (flipVcom s).bitCount = s.bitCount := rfl
@[simp] theorem flipVcom_bitOrder : (flipVcom s).bitOrder = s.bitOrder := rfl
@[simp] theorem flipVcom_port : (flipVcom s).port = s.port := rfl
@[simp] theorem flipVcom_resetIn : (flipVcom s).resetIn = s.resetIn := rfl

@[simp] theorem loadShift_cfg (o : BitOrder) (b : Byte) : (loadShift o b s).cfg = s.cfg := rfl
@[simp] theorem loadShift_fb (o : BitOrder) (b : Byte) : (loadShift o b s).fb = s.fb := rfl
@[simp] theorem loadShift_rot (o : BitOrder) (b : Byte) : (loadShift o b s).rot = s.rot := rfl
@[simp] theorem loadShift_vcom (o : BitOrder) (b : Byte) : (loadShift o b s).vcom = s.vcom := rfl
@[simp] theorem loadShift_initOk (o : BitOrder) (b : Byte) : (loadShift o b s).initOk = s.initOk := rfl
@[simp] theorem loadShift_err (o : BitOrder) (b : Byte) : (loadShift o b s).err = s.err := rfl
@[simp] theorem loadShift_errCause (o : BitOrder) (b : Byte) : (loadShift o b s).errCause = s.errCause := rfl
@[simp] theorem loadShift_cs (o : BitOrder) (b : Byte) : (loadShift o b s).cs = s.cs := rfl
@[simp] theorem loadShift_clk (o : BitOrder) (b : Byte) : (loadShift o b s).clk = s.clk := rfl
@[simp] theorem loadShift_data (o : BitOrder) (b : Byte) : (loadShift o b s).data = s.data := rfl
@[simp] theorem loadShift_trace (o : BitOrder) (b : Byte) : (loadShift o b s).trace = s.trace := rfl
@[simp] theorem loadShift_completions (o : BitOrder) (b : Byte) : (loadShift o b s).completions = s.completions := rfl
@[simp] theorem loadShift_busy (o : BitOrder) (b : Byte) : (loadShift o b s).busy = s.busy := rfl
@[simp] theorem loadShift_phase (o : BitOrder) (b : Byte) : (loadShift o b s).phase = s.phase := rfl
@[simp] theorem loadShift_row (o : BitOrder) (b : Byte) : (loadShift o b s).row = s.row := rfl
@[simp] theorem loadShift_col (o : BitOrder) (b : Byte) : (loadShift o b s).col = s.col := rfl
@[simp] theorem loadShift_sr (o : BitOrder) (b : Byte) : (loadShift o b s).sr = b := rfl
@[simp] theorem loadShift_bitCount (o : BitOrder) (b : Byte) : (loadShift o b s).bitCount = 0 := rfl
@[simp] theorem loadShift_bitOrder (o : BitOrder) (b : Byte) : (loadShift o b s).bitOrder = o := rfl
@[simp] theorem loadShift_port (o : BitOrder) (b : Byte) : (loadShift o b s).port = s.port := rfl
@[simp] theorem loadShift_resetIn (o : BitOrder) (b : Byte) : (loadShift o b s).resetIn = s.resetIn := rfl

@[simp] theorem enterPhase_cfg (p : Phase) : (enterPhase p s).cfg = s.cfg := rfl
@[simp] theorem enterPhase_fb (p : Phase) : (enterPhase p s).fb = s.fb := rfl
@[simp] theorem enterPhase_rot (p : Phase) : (enterPhase p s).rot = s.rot := rfl
@[simp] theorem enterPhase_vcom (p : Phase) : (enterPhase p s).vcom = s.vcom := rfl
@[simp] theorem enterPhase_initOk (p : Phase) : (enterPhase p s).initOk = s.initOk := rfl
@[simp] theorem enterPhase_err (p : Phase) : (enterPhase p s).err = s.err := rfl
@[simp] theorem enterPhase_errCause (p : Phase) : (enterPhase p s).errCause = s.errCause := rfl
@[simp] theorem enterPhase_cs (p : Phase) : (enterPhase p s).cs = s.cs := rfl
@[simp] theorem enterPhase_clk (p : Phase) : (enterPhase p s).clk = s.clk := rfl
@[simp] theorem enterPhase_data (p : Phase) : (enterPhase p s).data = s.data := rfl
@[simp] theorem enterPhase_trace (p : Phase) : (enterPhase p s).trace = s.trace := rfl
@[simp] theorem enterPhase_completions (p : Phase) : (enterPhase p s).completions = s.completions := rfl
@[simp] theorem enterPhase_busy (p : Phase) : (enterPhase p s).busy = true := rfl
@[simp] theorem enterPhase_phase (p : Phase) : (enterPhase p s).phase = p := rfl
@[simp] theorem enterPhase_row (p : Phase) : (enterPhase p s).row = s.row := rfl
@[simp] theorem enterPhase_col (p : Phase) : (enterPhase p s).col = s.col := rfl
@[simp] theorem enterPhase_sr (p : Phase) : (enterPhase p s).sr = s.sr := rfl
@[simp] theorem enterPhase_bitCount (p : Phase) : (enterPhase p s).bitCount = s.bitCount := rfl
@[simp] theorem enterPhase_bitOrder (p : Phase) : (enterPhase p s).bitOrder = s.bitOrder := rfl
@[simp] theorem enterPhase_port (p : Phase) : (enterPhase p s).port = s.port := rfl
@[simp] theorem enterPhase_resetIn (p : Phase) : (enterPhase p s).resetIn = s.resetIn := rfl

@[simp] theorem applyReset_cfg (d : ResetDraw) : (applyReset d s).cfg = s.cfg := rfl
@[simp] theorem applyReset_fb (d : ResetDraw) : (applyReset d s).fb = Memory.ofBytes (fbBytes s.cfg) d.fb := rfl
@[simp] theorem applyReset_rot (d : ResetDraw) : (applyReset d s).rot = if d.allocOk then .r0 else d.rot := rfl
@[simp] theorem applyReset_vcom (d : ResetDraw) : (applyReset d s).vcom = if d.allocOk then s.cfg.vcomInit else d.vcom := rfl
@[simp] theorem applyReset_initOk (d : ResetDraw) : (applyReset d s).initOk = d.allocOk := rfl
@[simp] theorem applyReset_err (d : ResetDraw) : (applyReset d s).err = false := rfl
@[simp] theorem applyReset_errCause (d : ResetDraw) : (applyReset d s).errCause = .none := rfl
@[simp] theorem applyReset_cs (d : ResetDraw) : (applyReset d s).cs = !s.cfg.csActive := rfl
@[simp] theorem applyReset_clk (d : ResetDraw) : (applyReset d s).clk = false := rfl
@[simp] theorem applyReset_data (d : ResetDraw) : (applyReset d s).data = d.siReset := rfl
@[simp] theorem applyReset_trace (d : ResetDraw) : (applyReset d s).trace = [] := rfl
@[simp] theorem applyReset_completions (d : ResetDraw) : (applyReset d s).completions = s.completions := rfl
@[simp] theorem applyReset_busy (d : ResetDraw) : (applyReset d s).busy = false := rfl
@[simp] theorem applyReset_phase (d : ResetDraw) : (applyReset d s).phase = .idle := rfl
@[simp] theorem applyReset_row (d : ResetDraw) : (applyReset d s).row = s.row := rfl
@[simp] theorem applyReset_col (d : ResetDraw) : (applyReset d s).col = s.col := rfl
@[simp] theorem applyReset_sr (d : ResetDraw) : (applyReset d s).sr = s.sr := rfl
@[simp] theorem applyReset_bitCount (d : ResetDraw) : (applyReset d s).bitCount = 0 := rfl
@[simp] theorem applyReset_bitOrder (d : ResetDraw) : (applyReset d s).bitOrder = s.bitOrder := rfl
@[simp] theorem applyReset_port (d : ResetDraw) : (applyReset d s).port = s.port := rfl
@[simp] theorem applyReset_resetIn (d : ResetDraw) : (applyReset d s).resetIn = none := rfl

@[simp] theorem atBoundary_cfg : (atBoundary s).cfg = s.cfg := rfl
@[simp] theorem atBoundary_fb : (atBoundary s).fb = s.fb := rfl
@[simp] theorem atBoundary_rot : (atBoundary s).rot = s.rot := rfl
@[simp] theorem atBoundary_vcom : (atBoundary s).vcom = s.vcom := rfl
@[simp] theorem atBoundary_initOk : (atBoundary s).initOk = s.initOk := rfl
@[simp] theorem atBoundary_err : (atBoundary s).err = s.err := rfl
@[simp] theorem atBoundary_errCause : (atBoundary s).errCause = s.errCause := rfl
@[simp] theorem atBoundary_cs : (atBoundary s).cs = s.cs := rfl
@[simp] theorem atBoundary_clk : (atBoundary s).clk = s.clk := rfl
@[simp] theorem atBoundary_data : (atBoundary s).data = s.data := rfl
@[simp] theorem atBoundary_trace : (atBoundary s).trace = s.trace := rfl
@[simp] theorem atBoundary_completions : (atBoundary s).completions = s.completions := rfl
@[simp] theorem atBoundary_busy : (atBoundary s).busy = false := rfl
@[simp] theorem atBoundary_phase : (atBoundary s).phase = .idle := rfl
@[simp] theorem atBoundary_row : (atBoundary s).row = s.row := rfl
@[simp] theorem atBoundary_col : (atBoundary s).col = s.col := rfl
@[simp] theorem atBoundary_sr : (atBoundary s).sr = s.sr := rfl
@[simp] theorem atBoundary_bitCount : (atBoundary s).bitCount = 0 := rfl
@[simp] theorem atBoundary_bitOrder : (atBoundary s).bitOrder = s.bitOrder := rfl
@[simp] theorem atBoundary_port : (atBoundary s).port = s.port := rfl
@[simp] theorem atBoundary_resetIn : (atBoundary s).resetIn = none := rfl

@[simp] theorem presentWord_cfg (c : Word) : (presentWord c s).cfg = s.cfg := rfl
@[simp] theorem presentWord_fb (c : Word) : (presentWord c s).fb = s.fb := rfl
@[simp] theorem presentWord_rot (c : Word) : (presentWord c s).rot = s.rot := rfl
@[simp] theorem presentWord_vcom (c : Word) : (presentWord c s).vcom = s.vcom := rfl
@[simp] theorem presentWord_initOk (c : Word) : (presentWord c s).initOk = s.initOk := rfl
@[simp] theorem presentWord_err (c : Word) : (presentWord c s).err = s.err := rfl
@[simp] theorem presentWord_errCause (c : Word) : (presentWord c s).errCause = s.errCause := rfl
@[simp] theorem presentWord_cs (c : Word) : (presentWord c s).cs = s.cs := rfl
@[simp] theorem presentWord_clk (c : Word) : (presentWord c s).clk = s.clk := rfl
@[simp] theorem presentWord_data (c : Word) : (presentWord c s).data = s.data := rfl
@[simp] theorem presentWord_trace (c : Word) : (presentWord c s).trace = s.trace := rfl
@[simp] theorem presentWord_completions (c : Word) : (presentWord c s).completions = s.completions := rfl
@[simp] theorem presentWord_busy (c : Word) : (presentWord c s).busy = s.busy := rfl
@[simp] theorem presentWord_phase (c : Word) : (presentWord c s).phase = s.phase := rfl
@[simp] theorem presentWord_row (c : Word) : (presentWord c s).row = s.row := rfl
@[simp] theorem presentWord_col (c : Word) : (presentWord c s).col = s.col := rfl
@[simp] theorem presentWord_sr (c : Word) : (presentWord c s).sr = s.sr := rfl
@[simp] theorem presentWord_bitCount (c : Word) : (presentWord c s).bitCount = s.bitCount := rfl
@[simp] theorem presentWord_bitOrder (c : Word) : (presentWord c s).bitOrder = s.bitOrder := rfl
@[simp] theorem presentWord_port (c : Word) : (presentWord c s).port = c :: s.port.tail := rfl
@[simp] theorem presentWord_resetIn (c : Word) : (presentWord c s).resetIn = s.resetIn := rfl

/-- A raised error is the latch and the completion record (60_exceptions.md R201). -/
theorem raiseError_eq (e : ErrCause) : raiseError e s =
    { s with err := true, errCause := if s.err then s.errCause else e, completions := s.completions ++ [⟨false, false⟩] } :=
  rfl

end

/-- `State.reset` is what RESET leaves when `ALLOC_OK = 1`, `SI_RESET = 0` and no byte of `FB_INIT` is listed, whatever the
other state was apart from the configuration, the host's side and the unread registers (logs 3 to 5, 9 to 11). -/
theorem reset_eq_applyReset (rot : Rotation) (vcom : Bit) :
    State.reset = applyReset ⟨true, false, [], rot, vcom⟩ State.reset := by
  simp [applyReset, State.reset, Memory.ofBytes, Memory.place]

end Sys2Proof.Machine
end

