-- ==== Sys2Proof/Laws/Ops.lean ====
section
/-! SUPPORT. Laws/Ops.lean: what each shared operation does, said once: framebuffer access, CLEAR_BITS, a list of emitted
events, one transmitted byte, one row, the rows of a frame. -/

namespace Sys2Proof.Machine

/-! ### Framebuffer access -/

theorem fbRead_of_lt {i : Nat} {s : State} (h : i < fbBytes s.cfg) : fbRead i s = .ok (Memory.lookup s.fb i) := by
  simp [fbRead, Memory.read, h]

theorem fbWrite_of_lt {i : Nat} {s : State} (h : i < fbBytes s.cfg) (v : Byte) :
    fbWrite i v s = .ok { s with fb := Memory.store s.fb i v } := by
  simp [fbWrite, Memory.write, h]

/-- Writing `0xFF` to a run of indices inside the framebuffer changes `fb` only. -/
theorem foldlM_fill (l : List Nat) : ∀ (s : State), (∀ i ∈ l, i < fbBytes s.cfg) →
    l.foldlM (fun t i => fbWrite i 0xFF t) s =
      .ok { s with fb := l.foldl (fun m i => Memory.store m i 0xFF) s.fb } := by
  induction l with
  | nil => intro s _; rfl
  | cons i l ih =>
    intro s h
    rw [List.foldlM_cons, fbWrite_of_lt (h i (by simp))]
    exact ih _ fun j hj => h j (by simp [hj])

theorem fill_wf {size : Nat} (v : Byte) (l : List Nat) : ∀ {m : Memory}, Memory.Wf size m → (∀ i ∈ l, i < size) →
    Memory.Wf size (l.foldl (fun m i => Memory.store m i v) m) := by
  induction l with
  | nil => intro m hm _; exact hm
  | cons i l ih => intro m hm h; exact ih (store_wf hm (h i (by simp)) v) fun j hj => h j (by simp [hj])

theorem lookup_fill {size : Nat} (v : Byte) (l : List Nat) : ∀ {m : Memory}, Memory.Wf size m → (∀ i ∈ l, i < size) →
    ∀ a, Memory.lookup (l.foldl (fun m i => Memory.store m i v) m) a = if a ∈ l then v else Memory.lookup m a := by
  induction l with
  | nil => intro m _ _ a; simp
  | cons i l ih =>
    intro m hm h a
    rw [List.foldl_cons, ih (store_wf hm (h i (by simp)) v) fun j hj => h j (by simp [hj])]
    by_cases hai : a = i
    · subst hai; simp [lookup_store_self hm.1]
    · simp [hai, lookup_store_other hai]

/-- CLEAR_BITS never faults, changes `fb` only, keeps its form, and leaves `0xFF` in every byte (40_framebuffer.md R108). -/
theorem clearBits_ok (s : State) : ∃ m, clearBits s = .ok { s with fb := m } ∧
    (Memory.Wf (fbBytes s.cfg) s.fb → Memory.Wf (fbBytes s.cfg) m ∧ ∀ a < fbBytes s.cfg, Memory.lookup m a = 0xFF) := by
  refine ⟨_, foldlM_fill _ s (fun i hi => List.mem_range.mp hi), fun hm => ?_⟩
  have hr : ∀ i ∈ List.range (fbBytes s.cfg), i < fbBytes s.cfg := fun i hi => List.mem_range.mp hi
  exact ⟨fill_wf _ _ hm hr, fun a ha => by rw [lookup_fill _ _ hm hr]; simp [ha]⟩

/-! ### Emitted events -/

/-- Emit a list of events in order. -/
def emitAll (es : List PinEvent) (s : State) : State := es.foldl (fun t e => emit e.pin e.level t) s

theorem levelAfter_cons (p : Pin) (l : Bit) (e : PinEvent) (es : List PinEvent) :
    levelAfter p l (e :: es) = levelAfter p (if e.pin = p then e.level else l) es := rfl

theorem levelAfter_append (p : Pin) (l : Bit) (es fs : List PinEvent) :
    levelAfter p l (es ++ fs) = levelAfter p (levelAfter p l es) fs := by simp [levelAfter]

/-- Emitting appends the events to the trace, sets each pin to its last level, and changes nothing else (00_scope.md R11,
10_state.md R27). -/
theorem emitAll_eq (es : List PinEvent) : ∀ s : State, emitAll es s =
    { s with
      trace := s.trace ++ es
      cs := levelAfter .cs s.cs es
      clk := levelAfter .clk s.clk es
      data := levelAfter .data s.data es } := by
  induction es with
  | nil => intro s; simp [emitAll, levelAfter]
  | cons e es ih =>
    intro s
    rw [emitAll, List.foldl_cons, ← emitAll, ih]
    simp [emit, levelAfter_cons, eq_comm]

theorem emitAll_append (es fs : List PinEvent) (s : State) : emitAll (es ++ fs) s = emitAll fs (emitAll es s) := by
  simp [emitAll]

theorem emit_eq_emitAll (p : Pin) (l : Bit) (s : State) : emit p l s = emitAll [⟨p, l⟩] s := rfl

/-- One byte is its 25 events (41_serializer.md R130, R131). -/
theorem txByte_eq_emitAll (o : BitOrder) (b : Byte) (s : State) : txByte o b s = emitAll (txEvents o b) s := by
  cases o <;> rfl

/-- The last bit sent: `b[0]` MSB first, `b[7]` LSB first (41_serializer.md R132). -/
def lastBit (o : BitOrder) (b : Byte) : Bit :=
  match o with
  | .msb => b.getLsbD 0
  | .lsb => b.getLsbD 7

theorem levelAfter_txEvents_cs (o : BitOrder) (b : Byte) (l : Bit) : levelAfter .cs l (txEvents o b) = l := by
  cases o <;> rfl

theorem levelAfter_txEvents_clk (o : BitOrder) (b : Byte) (l : Bit) : levelAfter .clk l (txEvents o b) = false := by
  cases o <;> rfl

theorem levelAfter_txEvents_data (o : BitOrder) (b : Byte) (l : Bit) : levelAfter .data l (txEvents o b) = lastBit o b := by
  cases o <;> rfl

/-- The events of a list of bytes, each in its own order. -/
def frameEvents (f : List (BitOrder × Byte)) : List PinEvent := f.flatMap (fun p => txEvents p.1 p.2)

theorem frameEvents_cons (p : BitOrder × Byte) (f : List (BitOrder × Byte)) :
    frameEvents (p :: f) = txEvents p.1 p.2 ++ frameEvents f := rfl

theorem frameEvents_append (f g : List (BitOrder × Byte)) : frameEvents (f ++ g) = frameEvents f ++ frameEvents g := by
  simp [frameEvents]

theorem frameEvents_flatMap {α : Type} (l : List α) (g : α → List (BitOrder × Byte)) :
    frameEvents (l.flatMap g) = l.flatMap (fun a => frameEvents (g a)) := by simp [frameEvents, List.flatMap_assoc]

theorem levelAfter_frameEvents_cs (f : List (BitOrder × Byte)) (l : Bit) : levelAfter .cs l (frameEvents f) = l := by
  induction f with
  | nil => rfl
  | cons p f ih => rw [frameEvents_cons, levelAfter_append, levelAfter_txEvents_cs, ih]

theorem levelAfter_frameEvents_clk (f : List (BitOrder × Byte)) : levelAfter .clk false (frameEvents f) = false := by
  induction f with
  | nil => rfl
  | cons p f ih => rw [frameEvents_cons, levelAfter_append, levelAfter_txEvents_clk, ih]

/-- A run of framebuffer bytes inside the framebuffer, sent LSB first (42_framer.md R155, step 4b). -/
theorem foldlM_sendFbByte (base : Nat) (l : List Nat) : ∀ s : State, (∀ j ∈ l, base + j < fbBytes s.cfg) →
    l.foldlM (fun t j => sendFbByte (base + j) t) s =
      .ok (emitAll (frameEvents (l.map fun j => (BitOrder.lsb, Memory.lookup s.fb (base + j)))) s) := by
  induction l with
  | nil => intro s _; rfl
  | cons j l ih =>
    intro s h
    have hs : sendFbByte (base + j) s = .ok (txByte .lsb (Memory.lookup s.fb (base + j)) s) := by
      rw [sendFbByte, fbRead_of_lt (h j (by simp))]; rfl
    rw [List.foldlM_cons, hs, txByte_eq_emitAll]
    rw [List.map_cons, frameEvents_cons, emitAll_append]
    refine (ih _ ?_).trans ?_
    · rw [emitAll_eq]; exact fun k hk => h k (by simp [hk])
    · rw [emitAll_eq (txEvents _ _)]

/-- A row inside the frame is sent as the bytes of `rowFrame` (42_framer.md R155, step 4). -/
theorem sendRow_ok (s : State) {i : Nat} (h : i * bpr s.cfg + bpr s.cfg ≤ fbBytes s.cfg) :
    sendRow i s = .ok (emitAll (frameEvents (rowFrame s i)) s) := by
  have hl : ∀ j ∈ List.range (bpr s.cfg), i * bpr s.cfg + j < fbBytes s.cfg := by
    intro j hj; have := List.mem_range.mp hj; omega
  have h1 := txByte_eq_emitAll .lsb (BitVec.ofNat 8 (i + 1)) s
  generalize ht : txByte .lsb (BitVec.ofNat 8 (i + 1)) s = t at h1
  have hc : t.cfg = s.cfg := by rw [h1, emitAll_eq]
  have hf : t.fb = s.fb := by rw [h1, emitAll_eq]
  have h2 := foldlM_sendFbByte (i * bpr s.cfg) (List.range (bpr s.cfg)) t (by rw [hc]; exact hl)
  rw [hf] at h2
  have h3 : sendRow i s = (List.range (bpr t.cfg)).foldlM (fun u j => sendFbByte (i * bpr t.cfg + j) u) t >>=
      fun u => .ok (txByte .lsb 0x00 u) := by rw [← ht]; rfl
  rw [h3, hc, h2, h1]
  simp only [rowFrame, List.cons_append, frameEvents_cons, frameEvents_append, emitAll_append, ← txByte_eq_emitAll]
  rfl

/-- The bytes of a row depend on the configuration and the framebuffer only. -/
theorem rowFrame_congr {s t : State} (hc : t.cfg = s.cfg) (hf : t.fb = s.fb) (i : Nat) : rowFrame t i = rowFrame s i := by
  simp [rowFrame, hc, hf]

/-- The rows of a frame, in order. -/
theorem foldlM_sendRow (l : List Nat) : ∀ s : State, (∀ i ∈ l, i * bpr s.cfg + bpr s.cfg ≤ fbBytes s.cfg) →
    l.foldlM (fun t i => sendRow i t) s = .ok (emitAll (frameEvents (l.flatMap (rowFrame s))) s) := by
  induction l with
  | nil => intro s _; rfl
  | cons i l ih =>
    intro s h
    rw [List.foldlM_cons, sendRow_ok s (h i (by simp)), List.flatMap_cons, frameEvents_append, emitAll_append]
    have hc : (emitAll (frameEvents (rowFrame s i)) s).cfg = s.cfg := by rw [emitAll_eq]
    have hf : (emitAll (frameEvents (rowFrame s i)) s).fb = s.fb := by rw [emitAll_eq]
    refine (ih _ ?_).trans ?_
    · rw [hc]; exact fun k hk => h k (by simp [hk])
    · rw [funext (rowFrame_congr hc hf)]

/-! ### Geometry -/

/-- The framebuffer is `H` rows of `BPR` bytes (20_memory.md R51). -/
theorem fbBytes_eq {c : Config} (h : c.Wf) : fbBytes c = c.h * bpr c := by
  obtain ⟨⟨hw, -, -⟩, -⟩ := h
  obtain ⟨k, hk⟩ := Nat.dvd_of_mod_eq_zero hw
  simp [fbBytes, bpr, hk, Nat.mul_assoc, Nat.mul_comm k c.h]

/-- `W = 8 * BPR` (00_scope.md R7). -/
theorem w_eq {c : Config} (h : c.Wf) : c.w = 8 * bpr c := by
  obtain ⟨⟨hw, -, -⟩, -⟩ := h
  simp only [bpr]; omega

/-- Every row inside the frame lies inside the framebuffer. -/
theorem row_le {c : Config} (h : c.Wf) {i : Nat} (hi : i < c.h) : i * bpr c + bpr c ≤ fbBytes c := by
  rw [fbBytes_eq h, ← Nat.succ_mul]
  exact Nat.mul_le_mul_right _ hi

/-- The transform maps an in-range coordinate into the frame (40_framebuffer.md R103). -/
theorem transform_mem {r : Rotation} {c : Config} {x y : Int} (h : InRange r c x y) :
    (0 ≤ (transform r c x y).1 ∧ (transform r c x y).1 < c.w) ∧ (0 ≤ (transform r c x y).2 ∧ (transform r c x y).2 < c.h) := by
  cases r <;> simp only [InRange, extents, transform] at h ⊢ <;> omega

/-- A pixel of the frame lies inside the framebuffer (20_memory.md R58). -/
theorem pixelIndex_lt {c : Config} (h : c.Wf) {px py : Nat} (hx : px < c.w) (hy : py < c.h) : pixelIndex c px py < fbBytes c := by
  have h1 := row_le h hy
  have h2 := w_eq h
  simp only [pixelIndex]
  omega

/-- A located coordinate gives an index inside the framebuffer and a table index below 8. -/
theorem locate_lt {r : Rotation} {c : Config} (hc : c.Wf) {x y : Int} {i k : Nat} (h : locate r c x y = some (i, k)) :
    i < fbBytes c ∧ k < 8 := by
  unfold locate at h
  split at h
  · next hr =>
    have ht := transform_mem hr
    simp only [Option.some.injEq, Prod.mk.injEq] at h
    obtain ⟨rfl, rfl⟩ := h
    exact ⟨pixelIndex_lt hc (by omega) (by omega), by omega⟩
  · cases h

theorem locate_of_not_inRange {r : Rotation} {c : Config} {x y : Int} (h : ¬ InRange r c x y) : locate r c x y = none := by
  simp only [locate, if_neg h]

/-! ### The end of a command -/

@[simp] theorem finish_ok (s : State) : finish (.ok s) = .next s := rfl
@[simp] theorem finish_error (f : Fault) : finish (.error f) = .fault f := rfl

theorem requireInit_of_ok {s : State} (h : s.initOk = true) (rest : State → Result) : requireInit rest s = rest s := by
  simp [requireInit, h]

theorem requireInit_of_not_ok {s : State} (h : s.initOk = false) (rest : State → Result) :
    requireInit rest s = .next (raiseError .notInitialised s) := by
  simp [requireInit, h]

end Sys2Proof.Machine
end

