-- ==== Sys2Proof/Laws/Framer.lean ====
section
/-! SUPPORT. Laws/Framer.lean: everything a phase of the framer's table and a micro-step can do, said once
(42_framer.md R160, 41_serializer.md R138), so that no later proof unfolds the table. -/

namespace Sys2Proof.Machine

/-- A bit group is its three events (41_serializer.md R130). -/
theorem sendBit_eq_emitAll (b : Bit) (s : State) : sendBit b s = emitAll [⟨.clk, false⟩, ⟨.data, b⟩, ⟨.clk, true⟩] s := rfl

/-- Going to the next phase changes the phase and the two counters only. -/
theorem nextPhase_eq (s : State) :
    nextPhase s = { s with phase := (nextPhase s).phase, row := (nextPhase s).row, col := (nextPhase s).col } := by
  unfold nextPhase; cases s.phase <;> rfl

/-- A phase transmits a byte exactly when the table says so. -/
theorem phaseByte_eq_none (s : State) : phaseByte s = none ↔ transmits s.phase = false := by
  unfold phaseByte transmits; cases s.phase <;> simp

/-- The events of a phase that transmits no byte. -/
def phaseEvents (s : State) : List PinEvent :=
  match s.phase with
  | .cCs | .rCs => [⟨.cs, s.cfg.csActive⟩]
  | .cUncs | .rUncs => [⟨.cs, !s.cfg.csActive⟩]
  | .idle | .cCmd | .cPad | .cFlip | .cFill | .rCmd | .rFlip | .rAddr | .rData | .rEol | .rTrail | .done => []

/-- The action of a phase that transmits no byte: it never faults, and this is all it changes. -/
theorem phaseAction_cases (s : State) : ∃ t, phaseAction s = .ok t ∧
    t = { s with
      fb := t.fb
      vcom := if s.phase = .cFlip ∨ s.phase = .rFlip then !s.vcom else s.vcom
      cs := levelAfter .cs s.cs (phaseEvents s)
      trace := s.trace ++ phaseEvents s
      completions := if s.phase = .done then s.completions ++ [⟨true, false⟩] else s.completions
      busy := if s.phase = .done then false else s.busy
      row := if s.phase = .rFlip then 0 else s.row } ∧
    (Memory.Wf (fbBytes s.cfg) s.fb → Memory.Wf (fbBytes s.cfg) t.fb) := by
  obtain ⟨m, hm, hw⟩ := clearBits_ok s
  by_cases hf : s.phase = .cFill
  · refine ⟨{ s with fb := m }, by simp [phaseAction, hf, hm], ?_, fun h => (hw h).1⟩
    simp [hf, phaseEvents, levelAfter]
  · obtain ⟨cfg, fb, rot, vcom, initOk, err, errCause, cs, clk, data, trace, completions, busy, phase, row, col, sr,
      bitCount, bitOrder, port, resetIn⟩ := s
    cases phase <;> first
      | exact absurd rfl hf
      | exact ⟨_, rfl, by simp [phaseEvents, levelAfter, assertCs, deassertCs, emit, flipVcom, respond], fun h => h⟩

/-- Everything a micro-step that answers a next state can do: a phase's action, a bit group, or the end of a byte. -/
theorem bitStep_cases {s t : State} (h : bitStep s = .next t) :
    (transmits s.phase = false ∧ ∃ u, phaseAction s = .ok u ∧ t = nextPhase u) ∨
    (transmits s.phase = true ∧ s.bitCount < 8 ∧ ∃ b r o, t = { s with
      trace := s.trace ++ [⟨.clk, false⟩, ⟨.data, b⟩, ⟨.clk, true⟩], clk := true, data := b, sr := r, bitOrder := o,
      bitCount := s.bitCount + 1 }) ∨
    (transmits s.phase = true ∧ 8 ≤ s.bitCount ∧
      t = nextPhase { s with trace := s.trace ++ [⟨.clk, false⟩], clk := false, bitCount := 0 }) := by
  unfold bitStep at h
  cases hp : phaseByte s with
  | none =>
    obtain ⟨u, hu, -⟩ := phaseAction_cases s
    rw [hp] at h
    simp only [hu] at h
    cases h
    exact .inl ⟨(phaseByte_eq_none s).mp hp, u, hu, rfl⟩
  | some p =>
    obtain ⟨o, b⟩ := p
    have ht : transmits s.phase = true := by
      by_contra hh
      simp [(phaseByte_eq_none s).mpr (by simpa using hh)] at hp
    rw [hp] at h
    simp only at h
    split at h
    · next h0 =>
      cases b with
      | error e => cases h
      | ok b =>
        cases h
        refine .inr (.inl ⟨ht, by omega, shiftOut (loadShift o b s), shifted (loadShift o b s), o, ?_⟩)
        simp [shiftBit, sendBit_eq_emitAll, emitAll_eq, levelAfter, h0, shifted]
    · split at h
      · next h8 =>
        cases h
        refine .inr (.inl ⟨ht, h8, shiftOut s, shifted s, s.bitOrder, ?_⟩)
        simp [shiftBit, sendBit_eq_emitAll, emitAll_eq, levelAfter]
      · cases h
        exact .inr (.inr ⟨ht, by omega, by simp [closeByte, emit]⟩)

/-! ### Runs of steps -/

/-- Two runs in a row are one run. -/
theorem iterate_add {f : State → Result} {a b : Nat} {s t u : State} (h : iterate f a s = .next t)
    (h' : iterate f b t = .next u) : iterate f (a + b) s = .next u := by
  induction a generalizing s with
  | zero => simp only [iterate] at h; cases h; simpa using h'
  | succ a ih =>
    rw [Nat.succ_add]
    simp only [iterate] at h ⊢
    cases hs : f s with
    | next v => rw [hs] at h; exact ih h
    | fault r => rw [hs] at h; cases h
    | refused r => rw [hs] at h; cases h

theorem iterate_one {f : State → Result} {s t : State} (h : f s = .next t) : iterate f 1 s = .next t := by
  simp [iterate, h]

end Sys2Proof.Machine
end

