-- ==== Sys2Proof/Laws/PerInstr.lean ====
section
/-! SUPPORT. Laws/PerInstr.lean: statements about every command as syntax, one lemma per constructor. Family `TableRow`: the
encoded word meets its row of spec/opcode_table.json, whatever the operands. -/

namespace Sys2Proof.Laws.TableRow

/-- The mask of a command's row (spec/opcode_table.json). -/
def mask : Instr → Word
  | .setPixel _ _ _ => 0xF8000000
  | .getPixel _ _ => 0xFC000000
  | .setRotation _ => 0xFFFFFFFC
  | .clearDisplay => 0xFFFFFFFF
  | .refreshDisplay => 0xFFFFFFFF

/-- The match value of a command's row (spec/opcode_table.json). -/
def pattern : Instr → Word
  | .setPixel _ _ _ => 0x10000000
  | .getPixel _ _ => 0x20000000
  | .setRotation _ => 0x30000000
  | .clearDisplay => 0x40000000
  | .refreshDisplay => 0x50000000

/-- The encoded word meets its row. -/
def Statement (i : Instr) : Prop := encode i &&& mask i = pattern i

theorem setPixel (x y : Int) (v : Bit) : Statement (.setPixel x y v) := by
  simp only [Statement, encode, mask, pattern]
  generalize BitVec.ofInt 13 x = a
  generalize BitVec.ofInt 13 y = b
  ext j hj
  simp only [BitVec.getElem_and, BitVec.getElem_append]
  cases v <;> interval_cases j <;> simp

theorem getPixel (x y : Int) : Statement (.getPixel x y) := by
  simp only [Statement, encode, mask, pattern]
  generalize BitVec.ofInt 13 x = a
  generalize BitVec.ofInt 13 y = b
  ext j hj
  simp only [BitVec.getElem_and, BitVec.getElem_append]
  interval_cases j <;> simp

theorem setRotation (r : Rotation) : Statement (.setRotation r) := by
  cases r <;> rfl

theorem clearDisplay : Statement .clearDisplay := rfl

theorem refreshDisplay : Statement .refreshDisplay := rfl

end Sys2Proof.Laws.TableRow
end

