-- ==== Sys2Proof/Laws/Step.lean ====
section
/-! SUPPORT. Laws/Step.lean: what one step does, case by case, for either machine, so that no later proof unfolds `step`,
`fineStep` or `stepWith`. -/

namespace Sys2Proof.Machine

section
variable {s : State} {take : Word → State → Result}

theorem stepWith_refuses (h : ¬ s.cfg.Wf) : stepWith take s = .refused .illegalConfiguration := by
  simp only [stepWith, if_neg h]

theorem stepWith_reset {d : ResetDraw} (hc : s.cfg.Wf) (hr : s.resetIn = some d) : stepWith take s = .next (applyReset d s) := by
  simp only [stepWith, if_pos hc, hr]

theorem stepWith_wait (ha : Accepts s) (hp : s.port = []) : stepWith take s = .next s := by
  obtain ⟨h1, h2, h3⟩ := ha
  simp only [stepWith, if_pos h1, h3, h2, if_true, hp]

theorem stepWith_accept {c : Word} {rest : List Word} (ha : Accepts s) (hp : s.port = c :: rest) :
    stepWith take s = take c { s with port := rest } := by
  obtain ⟨h1, h2, h3⟩ := ha
  simp only [stepWith, if_pos h1, h3, h2, if_true, hp]

theorem stepWith_running (hc : s.cfg.Wf) (hr : s.resetIn = none) (hp : s.phase ≠ .idle) : stepWith take s = bitStep s := by
  simp only [stepWith, if_pos hc, hr, if_neg hp]

/-- A step that answers a next state started from a legal configuration. -/
theorem wf_of_stepWith {t : State} (h : stepWith take s = .next t) : s.cfg.Wf := by
  by_contra hc
  rw [stepWith_refuses hc] at h
  cases h

end

/-- The two machines take a word alike unless it is a bus command of an initialised block (42_framer.md R160). -/
theorem acceptWord_cases (c : Word) (s : State) :
    (acceptWord c s = runWord c s ∧ (s.initOk && isBusWord c) = false) ∨
    (s.initOk = true ∧ decode c = .ok .clearDisplay ∧ acceptWord c s = .next (enterPhase .cCs s)) ∨
    (s.initOk = true ∧ decode c = .ok .refreshDisplay ∧ acceptWord c s = .next (enterPhase .rCs s)) := by
  unfold acceptWord
  by_cases hi : s.initOk = true
  · simp only [hi, if_true]
    split <;> simp_all [isBusWord]
  · simp [show s.initOk = false by simpa using hi]

/-- An in-range coordinate is located at its transformed pixel (20_memory.md R52, R53). -/
theorem locate_of_inRange {r : Rotation} {c : Config} {x y : Int} (h : InRange r c x y) :
    ∃ px py : Nat, transform r c x y = ((px : Int), (py : Int)) ∧ px < c.w ∧ py < c.h ∧
      locate r c x y = some (pixelIndex c px py, px % 8) := by
  have ht := transform_mem h
  refine ⟨(transform r c x y).1.toNat, (transform r c x y).2.toNat, ?_, by omega, by omega, ?_⟩
  · ext <;> simp <;> omega
  · simp only [locate, if_pos h]

/-- `withFetchWord` makes the very next step run the word, from every state with a legal configuration. -/
theorem step_withFetchWord {s : State} (hc : s.cfg.Wf) (nbits w : Nat) :
    step (s.withFetchWord nbits w) = runWord (tableWord nbits w) { atBoundary s with port := s.port.tail } :=
  stepWith_accept (s := s.withFetchWord nbits w) ⟨hc, rfl, rfl⟩ rfl

end Sys2Proof.Machine
end

