-- ==== Sys2Proof/Laws/Wire.lean ====
section
/-! SUPPORT. Laws/Wire.lean: what a trace shows on the wire (41_serializer.md R137), the events of a whole transaction, and
the line discipline of a concatenation. -/

namespace Sys2Proof.Machine

theorem wireBits_append (es fs : List PinEvent) : ∀ d : Bit,
    wireBits d (es ++ fs) = wireBits d es ++ wireBits (levelAfter .data d es) fs := by
  induction es with
  | nil => intro d; simp [wireBits, levelAfter]
  | cons e es ih =>
    intro d
    obtain ⟨p, l⟩ := e
    cases p <;> cases l <;> simp [wireBits, ih, levelAfter_cons]

/-- One transmitted byte shows its eight bits. -/
theorem wireBits_txEvents (o : BitOrder) (b : Byte) (d : Bit) : wireBits d (txEvents o b) = byteBits o b := by
  cases o <;> simp [txEvents, bitNumbers, wireBits, byteBits]

theorem byteBits_length (o : BitOrder) (b : Byte) : (byteBits o b).length = 8 := by cases o <;> rfl

/-- Eight bits read in the order they were sent give the byte back. -/
theorem byteOfBits_byteBits (o : BitOrder) (b : Byte) : byteOfBits o (byteBits o b) = b := by
  cases o <;> revert b <;> decide

theorem wireBits_frameEvents (f : List (BitOrder × Byte)) : ∀ d : Bit,
    wireBits d (frameEvents f) = f.flatMap (fun p => byteBits p.1 p.2) := by
  induction f with
  | nil => intro d; rfl
  | cons p f ih => intro d; rw [frameEvents_cons, wireBits_append, wireBits_txEvents, ih]; rfl

theorem byteBits_flatMap_length (f : List (BitOrder × Byte)) :
    (f.flatMap (fun p => byteBits p.1 p.2)).length = 8 * f.length := by
  induction f with
  | nil => rfl
  | cons p f ih => rw [List.flatMap_cons, List.length_append, byteBits_length, ih, List.length_cons]; omega

/-- The bytes of a frame are read off its bits, each in its own order (41_serializer.md R137). -/
theorem wireBytes_frame (f : List (BitOrder × Byte)) :
    wireBytes (f.map (·.1)) (f.flatMap (fun p => byteBits p.1 p.2)) = f.map (·.2) := by
  induction f with
  | nil => rfl
  | cons p f ih =>
    simp only [List.map_cons, List.flatMap_cons, wireBytes]
    rw [List.take_left' (byteBits_length _ _), List.drop_left' (byteBits_length _ _), ih, byteOfBits_byteBits]

/-! ### A whole transaction -/

theorem transaction_eq (a : Bit) (f : List (BitOrder × Byte)) :
    transaction a f = ⟨.cs, a⟩ :: frameEvents f ++ [⟨.cs, !a⟩] := rfl

/-- The chip-select events carry no wire bit. -/
theorem wireBits_transaction (a : Bit) (f : List (BitOrder × Byte)) (d : Bit) :
    wireBits d (transaction a f) = f.flatMap (fun p => byteBits p.1 p.2) := by
  rw [transaction_eq, List.cons_append]
  simp only [wireBits, wireBits_append, wireBits_frameEvents]
  simp

theorem frameEvents_length (f : List (BitOrder × Byte)) : (frameEvents f).length = 25 * f.length := by
  induction f with
  | nil => rfl
  | cons p f ih =>
    have h : (txEvents p.1 p.2).length = 25 := by cases p.1 <;> rfl
    rw [frameEvents_cons, List.length_append, h, ih, List.length_cons]
    omega

theorem transaction_length (a : Bit) (f : List (BitOrder × Byte)) : (transaction a f).length = 25 * f.length + 2 := by
  rw [transaction_eq]
  simp only [List.length_append, List.length_cons, frameEvents_length, List.length_nil]

theorem clearFrame_length (s : State) : (clearFrame s).length = 2 := rfl

theorem rowFrame_length (s : State) (i : Nat) : (rowFrame s i).length = bpr s.cfg + 2 := by simp [rowFrame]

theorem refreshFrame_length (s : State) : (refreshFrame s).length = s.cfg.h * (bpr s.cfg + 2) + 2 := by
  simp [refreshFrame, rowFrame_length]

/-! ### The line discipline -/

theorem disciplined_append (a : Bit) (es fs : List PinEvent) : ∀ cs clk : Bit, disciplined a cs clk (es ++ fs) =
    (disciplined a cs clk es && disciplined a (levelAfter .cs cs es) (levelAfter .clk clk es) fs) := by
  induction es with
  | nil => intro cs clk; simp [disciplined, levelAfter]
  | cons e es ih =>
    intro cs clk
    obtain ⟨p, l⟩ := e
    cases p <;> simp [disciplined, ih, levelAfter_cons, Bool.and_assoc]

/-- The bytes of a frame, sent with chip select asserted from a low clock, keep the discipline. -/
theorem disciplined_frameEvents (a : Bit) (f : List (BitOrder × Byte)) : disciplined a a false (frameEvents f) = true := by
  induction f with
  | nil => rfl
  | cons p f ih =>
    have h : disciplined a a false (txEvents p.1 p.2) = true := by
      cases p.1 <;> simp [txEvents, bitNumbers, disciplined]
    rw [frameEvents_cons, disciplined_append, h, levelAfter_txEvents_cs, levelAfter_txEvents_clk, ih]
    rfl

end Sys2Proof.Machine
end

