-- ==== Sys2Proof/Tests/Slice0.lean ====
section
/-! SUPPORT. Tests/Slice0.lean: small tests, their expected values taken from spec/95_test_vectors.md (the section is named at
each group) or worked out by hand from the rules, and a witness for the hypotheses of every statement. -/

namespace Sys2Proof.Machine.Tests

/-! ### Well-formedness: one ill-formed term per check (R72) -/

theorem test_wf_setPixel_x_low : (Instr.setPixel (-4097) 0 true).wf = false := by decide
theorem test_wf_setPixel_x_high : (Instr.setPixel 4096 0 true).wf = false := by decide
theorem test_wf_setPixel_y_low : (Instr.setPixel 0 (-4097) true).wf = false := by decide
theorem test_wf_setPixel_y_high : (Instr.setPixel 0 4096 true).wf = false := by decide
theorem test_wf_getPixel_x_low : (Instr.getPixel (-4097) 0).wf = false := by decide
theorem test_wf_getPixel_x_high : (Instr.getPixel 4096 0).wf = false := by decide
theorem test_wf_getPixel_y_low : (Instr.getPixel 0 (-4097)).wf = false := by decide
theorem test_wf_getPixel_y_high : (Instr.getPixel 0 4096).wf = false := by decide
theorem test_wf_extremes : (Instr.setPixel 4095 (-4096) true).wf = true := by decide

/-! ### Configuration: one ill-formed configuration per check (R7), and the source's two geometries (R8) -/

theorem test_config_defaults : (defaultConfigOf 128 128).Wf ∧ (defaultConfigOf 8 2).Wf := by decide
theorem test_config_w_not_multiple : ¬ (defaultConfigOf 12 2).Wf := by decide
theorem test_config_w_zero : ¬ (defaultConfigOf 0 2).Wf := by decide
theorem test_config_w_large : ¬ (defaultConfigOf 4096 2).Wf := by decide
theorem test_config_h_zero : ¬ (defaultConfigOf 8 0).Wf := by decide
theorem test_config_h_large : ¬ (defaultConfigOf 8 256).Wf := by decide
theorem test_config_masks_overlap : ¬ Config.Wf { defaultConfigOf 8 2 with vcomMask := 0x20 } := by decide
theorem test_config_lut_repeats : ¬ Config.Wf { defaultConfigOf 8 2 with setLut := [1, 1, 2, 4, 8, 16, 32, 64] } := by decide
theorem test_config_lut_not_one_hot : ¬ Config.Wf { defaultConfigOf 8 2 with setLut := [3, 1, 2, 4, 8, 16, 32, 64] } := by decide

/-! ### Decoding: words of 95_test_vectors.md section 2.1, and rows of spec/opcode_table.json -/

theorem test_decode_setPixel : decode 0b00010100000000010010000000000010#32 = .ok (.setPixel 9 2 true) := by decide
theorem test_decode_setPixel_negative : decode 0x13FFE000 = .ok (.setPixel (-1) 0 false) := by decide
theorem test_decode_getPixel : decode 0b00100000000000010010000000000010#32 = .ok (.getPixel 9 2) := by decide
theorem test_decode_getPixel_negative : decode 0x23FFFFFF = .ok (.getPixel (-1) (-1)) := by decide
theorem test_decode_setRotation : decode 0b00110000000000000000000000000010#32 = .ok (.setRotation .r2) := by decide
theorem test_decode_clearDisplay : decode 0b01000000000000000000000000000000#32 = .ok .clearDisplay := by decide
theorem test_decode_refreshDisplay : decode 0b01010000000000000000000000000000#32 = .ok .refreshDisplay := by decide
theorem test_decode_op6 : decode 0x60000000 = .error (.reservedOp 6) := by decide
theorem test_decode_op15 : decode 0xF0000000 = .error (.reservedOp 15) := by decide
theorem test_decode_zero : decode 0 = .error (.reservedOp 0) := by decide
theorem test_decode_setPixel_bit27 : decode 0x18000000 = .error (.reservedBits 1) := by decide
theorem test_decode_getPixel_bit26 : decode 0x24000000 = .error (.reservedBits 2) := by decide
theorem test_decode_setRotation_bit2 : decode 0x30000004 = .error (.reservedBits 3) := by decide
theorem test_decode_clearDisplay_bit0 : decode 0x40000001 = .error (.reservedBits 4) := by decide
theorem test_decode_refreshDisplay_bit27 : decode 0x58000000 = .error (.reservedBits 5) := by decide
theorem test_encode_setPixel : encode (.setPixel 7 1 false) = 0x1000E001 := by decide
theorem test_encode_getPixel : encode (.getPixel 7 15) = 0x2000E00F := by decide
theorem test_decodeTableWord : decodeTableWord 32 0x30000003 = some (.setRotation .r3) ∧ decodeTableWord 32 0 = none := by decide
theorem test_assemble_refuses : assembleLine "SET_PIXEL 0, 0, 2".toList = .error .operandOutOfRange := by decide
theorem test_assemble_counts : assembleLine "SET_ROTATION".toList = .error .wrongOperandCount := by decide

/-! ### States to test on -/

/-- An initialised block of `w` by `h` pixels with the default parameters. -/
def block (w h : Nat) (fb : List Byte) (r : Rotation) : State :=
  { State.reset with cfg := defaultConfigOf w h, fb := Memory.ofBytes (fbBytes (defaultConfigOf w h)) fb, rot := r }

/-- The same with words on its port. -/
def withPort (s : State) (ws : List Word) : State := { s with port := ws }

/-- A block whose initialisation failed. -/
def failed : State := { State.reset with initOk := false }

/-- A block in the middle of a full-frame write, at a byte boundary before its first row byte. -/
def inRowData : State := { State.reset with phase := .rData, busy := true, cs := true }

/-- One draw of a successful reset. -/
def goodDraw : ResetDraw := ⟨true, true, [0x3C, 0x12], .r3, false⟩

/-- One view of the state a step answers. -/
def after {α : Type} (f : State → α) : Result → Option α
  | .next t => some (f t)
  | .fault _ => none
  | .refused _ => none

/-- The last completion record. -/
def lastRecord (s : State) : Option Completion := s.completions.getLast?

/-! ### One instruction each (95_test_vectors.md sections 2.3 to 2.6) -/

theorem test_setPixel : after (·.fb) (exec (.setPixel 9 2 true) (block 16 8 [] .r0)) = some [(5, 0x02)] := by decide
theorem test_setPixel_rot3 : after (·.fb) (exec (.setPixel 7 15 true) (block 16 8 [] .r3)) = some [(1, 0x80)] := by decide
theorem test_getPixel : after lastRecord (exec (.getPixel 9 2) (block 16 8 [0, 0, 0, 0, 0, 2] .r0)) = some (some ⟨true, true⟩) := by
  decide
theorem test_getPixel_off : after lastRecord (exec (.getPixel 16 2) (block 16 8 [255, 255, 255, 255] .r0)) =
    some (some ⟨true, false⟩) := by decide
theorem test_setRotation : after (·.rot) (exec (.setRotation .r2) (block 16 8 [] .r0)) = some .r2 := by decide
theorem test_clearDisplay : after (fun t => (t.fb, t.vcom)) (exec .clearDisplay (block 8 2 [0xAA, 0x55] .r0)) =
    some ([(0, 0xFF), (1, 0xFF)], false) := by decide
theorem test_clearDisplay_bytes : after (fun t => wireBytes [.msb, .lsb] (wireBits false t.trace))
    (exec .clearDisplay (block 8 2 [0xAA, 0x55] .r0)) = some [0x60, 0x00] := by decide
set_option maxRecDepth 4000 in
theorem test_refreshDisplay_bytes : after (fun t => wireBytes [.msb, .lsb, .lsb, .lsb, .lsb, .lsb, .lsb, .msb] (wireBits false t.trace))
    (exec .refreshDisplay (block 8 2 [0xAA, 0x55] .r0)) = some [0xC0, 0x01, 0xAA, 0x00, 0x02, 0x55, 0x00, 0x00] := by decide
theorem test_txMsb_wire : wireBits false (txEvents .msb 0xC0) = [true, true, false, false, false, false, false, false] := by decide
theorem test_txLsb_wire : wireBits false (txEvents .lsb 0xAA) = [false, true, false, true, false, true, false, true] := by decide
theorem test_transform_rot1 : transform .r1 (defaultConfigOf 128 128) 0 0 = (127, 0) := by decide
theorem test_transform_rot3 : transform .r3 (defaultConfigOf 16 8) 3 5 = (5, 4) := by decide
theorem test_illegal_status : after status (step (withPort (block 8 2 [] .r0) [0x30000004])) = some 0x0E := by decide
theorem test_failed_status : after status (step (withPort failed [0x60000000])) = some 0x14 := by decide
theorem test_fetchWord_runs : after (·.rot) (step (State.reset.withFetchWord 32 0x30000001)) = some .r1 := by decide
theorem test_micro_step_loads : after (fun t => (t.bitCount, t.sr, t.clk)) (bitStep { inRowData with fb := [(0, 0xAB)] }) =
    some (1, 0x55, true) := by decide
theorem test_memory_canonical : Memory.store [(0, 0x01)] 0 0x00 = [] := by decide

/-! ### Witnesses: for every statement with hypotheses, states and operands that meet them all together -/

/-- An initialised block of 16 by 8 pixels, rotated. -/
def good : State := block 16 8 [1, 2] .r3

theorem inv_good : Inv good := by constructor <;> decide
theorem inv_failed : Inv failed := by constructor <;> decide

/-- The invariant does not speak of the port. -/
theorem inv_port {s : State} (h : Inv s) (ws : List Word) : Inv (withPort s ws) :=
  ⟨h.cfg, h.fb, h.err, h.illegal, h.notInit, h.busy, h.running, h.count, h.boundary, h.clk, h.cs, h.row, h.col⟩

theorem accepts_good (ws : List Word) : Accepts (withPort good ws) := ⟨inv_good.cfg, rfl, rfl⟩
theorem inv_inRowData : Inv inRowData := by constructor <;> decide

theorem witness_EncodedCommandDecodesToItself : (Instr.setPixel (-4096) 4095 true).wf = true := by decide
theorem witness_DecodedWordIsItsCommandsEncoding : decode 0x15FFF000 = .ok (.setPixel 4095 (-4096) true) := by decide
theorem witness_StepRunsTheDecodedCommand : ∃ s, Accepts s ∧ s.port = 0x40000000 :: [] ∧ decode 0x40000000 = .ok .clearDisplay :=
  ⟨withPort good [0x40000000], accepts_good _, rfl, by decide⟩
theorem witness_AcceptedWordFollowsThePriority_failed : ∃ s, Accepts s ∧ s.port = 0x60000000 :: [] ∧ s.initOk = false :=
  ⟨withPort failed [0x60000000], ⟨inv_failed.cfg, rfl, rfl⟩, rfl, rfl⟩
theorem witness_AcceptedWordFollowsThePriority_illegal :
    ∃ s, Accepts s ∧ s.port = 0x60000000 :: [] ∧ s.initOk = true ∧ decode 0x60000000 = .error (.reservedOp 6) :=
  ⟨withPort good [0x60000000], accepts_good _, rfl, rfl, by decide⟩
theorem witness_AcceptedWordFollowsThePriority_legal :
    ∃ s, Accepts s ∧ s.port = 0x50000000 :: [] ∧ s.initOk = true ∧ decode 0x50000000 = .ok .refreshDisplay :=
  ⟨withPort good [0x50000000], accepts_good _, rfl, rfl, by decide⟩
theorem witness_UninitialisedBlockRejectsEveryCommand : failed.initOk = false := rfl
theorem witness_EveryAcceptedWordCompletesOnce : ∃ s, Inv s ∧ Accepts s ∧ s.port = 0x20000000 :: [0] :=
  ⟨withPort good [0x20000000, 0], inv_port inv_good _, accepts_good _, rfl⟩
theorem witness_RunningCommandHoldsThePort : ∃ t, inRowData.phase ≠ .idle ∧ inRowData.resetIn = none ∧ step inRowData = .next t :=
  ⟨_, by decide, rfl, rfl⟩
theorem witness_RunningCommandHoldsThePort_done :
    ∃ s t, s.phase = .done ∧ s.phase ≠ .idle ∧ s.resetIn = none ∧ step s = .next t :=
  ⟨{ State.reset with phase := .done, busy := true }, _, rfl, by decide, rfl, rfl⟩
theorem witness_IdleBlockWaitsForAWord : Accepts good ∧ good.port = [] := ⟨accepts_good [], rfl⟩
theorem witness_ErrorRecordIsSticky : ∃ s t, s.err = true ∧ s.resetIn = none ∧ (step s = .next t ∨ fineStep s = .next t) :=
  ⟨{ withPort good [0] with err := true, errCause := .illegalCommand }, _, rfl, rfl, .inl rfl⟩
theorem witness_OnlyResetWritesInitOk : ∃ s t, (step s = .next t ∨ fineStep s = .next t) ∧ s.resetIn = none :=
  ⟨withPort good [0x40000000], _, .inr rfl, rfl⟩
theorem witness_ResetInitialisesTheBlock : ∃ s : State, s.cfg.Wf ∧ s.resetIn = some goodDraw ∧ goodDraw.allocOk = true ∧
    1 < fbBytes s.cfg ∧ goodDraw.fb[1]? = some 0x12 :=
  ⟨{ inRowData with resetIn := some goodDraw }, inv_inRowData.cfg, rfl, rfl, by decide, rfl⟩
theorem witness_FailedInitialisationLastsUntilReset : Inv (withPort failed [0x40000000]) ∧ failed.initOk = false ∧ failed.resetIn = none :=
  ⟨inv_port inv_failed _, rfl, rfl⟩
theorem witness_IllegalConfigurationIsRefused : ∃ s : State, ¬ s.cfg.Wf := ⟨block 12 2 [] .r0, by decide⟩
theorem witness_OddRotationsSwapTheExtents :
    (Rotation.r0 = .r0 ∨ Rotation.r0 = .r2) ∧ (Rotation.r3 = .r1 ∨ Rotation.r3 = .r3) := by decide
theorem witness_TransformIsABijectionOntoTheFrame : InRange .r1 (defaultConfigOf 16 8) 7 15 ∧
    (0 ≤ (15 : Int) ∧ (15 : Int) < (defaultConfigOf 16 8).w) ∧ (0 ≤ (7 : Int) ∧ (7 : Int) < (defaultConfigOf 16 8).h) := by decide
theorem witness_PixelIndexIsRowMajor : (defaultConfigOf 16 8).Wf ∧ 15 < (defaultConfigOf 16 8).w ∧ 7 < (defaultConfigOf 16 8).h := by
  decide
theorem witness_MaskTablesAreOneHotComplements : (defaultConfigOf 8 2).Wf ∧ (0 : Nat) < 8 ∧ (7 : Nat) < 8 ∧ (0 : Nat) ≠ 7 := by decide
theorem witness_SetPixelWritesOnePixel_failed : failed.cfg.Wf ∧ Memory.Wf (fbBytes failed.cfg) failed.fb ∧ failed.initOk = false := by
  decide
theorem witness_SetPixelWritesOnePixel_clip : ∃ s : State, s.cfg.Wf ∧ Memory.Wf (fbBytes s.cfg) s.fb ∧ s.initOk = true ∧
    ¬ InRange s.rot s.cfg 8 0 := ⟨block 16 8 [] .r3, by decide⟩
theorem witness_SetPixelWritesOnePixel_inRange : ∃ s : State, s.cfg.Wf ∧ Memory.Wf (fbBytes s.cfg) s.fb ∧ s.initOk = true ∧
    InRange s.rot s.cfg 7 15 := ⟨block 16 8 [1, 2] .r3, by decide⟩
theorem witness_GetPixelRespondsThePixel_failed : failed.cfg.Wf ∧ failed.initOk = false := by decide
theorem witness_GetPixelRespondsThePixel_clip : ∃ s : State, s.cfg.Wf ∧ s.initOk = true ∧ ¬ InRange s.rot s.cfg (-1) 0 :=
  ⟨block 16 8 [] .r0, by decide⟩
theorem witness_GetPixelRespondsThePixel_inRange : ∃ s : State, s.cfg.Wf ∧ s.initOk = true ∧ InRange s.rot s.cfg 15 7 :=
  ⟨block 16 8 [] .r0, by decide⟩
theorem witness_SetRotationWritesOnlyTheRotation : failed.initOk = false ∧ State.reset.initOk = true := ⟨rfl, rfl⟩
theorem witness_WrittenPixelReadsBack : ∃ s : State, s.cfg.Wf ∧ Memory.Wf (fbBytes s.cfg) s.fb ∧ s.initOk = true ∧
    InRange s.rot s.cfg 0 15 := ⟨block 16 8 [] .r1, by decide⟩
theorem witness_ClippedPixelCommandsOnlyRespondOff : ∃ s : State, s.initOk = true ∧ ¬ InRange s.rot s.cfg 0 8 :=
  ⟨block 16 8 [] .r0, by decide⟩
theorem witness_SetPixelLeavesOtherPixels : ∃ s t : State, s.cfg.Wf ∧ Memory.Wf (fbBytes s.cfg) s.fb ∧ s.initOk = true ∧
    InRange s.rot s.cfg 15 7 ∧ ((14 : Int), (7 : Int)) ≠ (15, 7) ∧ exec (.setPixel 14 7 true) s = .next t :=
  ⟨block 16 8 [] .r0, _, by decide, by decide, rfl, by decide, by decide, rfl⟩
theorem witness_RotationsReachTheSamePhysicalPixel : ∃ s : State, s.cfg.Wf ∧ Memory.Wf (fbBytes s.cfg) s.fb ∧ s.initOk = true ∧
    InRange s.rot s.cfg 0 0 ∧ InRange .r2 s.cfg 0 7 ∧ transform .r2 s.cfg 0 7 = transform s.rot s.cfg 0 0 :=
  ⟨block 16 8 [] .r1, by decide⟩
theorem witness_PinsHoldTheirLastEmittedLevel : ∃ s t, s.resetIn = none ∧ (step s = .next t ∨ fineStep s = .next t) :=
  ⟨inRowData, _, rfl, .inr rfl⟩
theorem witness_CommandsKeepTheLineDiscipline :
    State.reset.cfg.Wf ∧ State.reset.cs = !State.reset.cfg.csActive ∧ State.reset.clk = false := by decide
theorem witness_ClearDisplaySendsItsFrameAndFills : State.reset.cfg.Wf ∧ Memory.Wf (fbBytes State.reset.cfg) State.reset.fb ∧
    failed.initOk = false ∧ failed.cfg.Wf ∧ State.reset.initOk = true := by decide
theorem witness_RefreshDisplaySendsTheWholeFrame :
    State.reset.cfg.Wf ∧ failed.initOk = false ∧ failed.cfg.Wf ∧ State.reset.initOk = true := by decide
theorem witness_ClearedPixelsReadOne : ∃ s : State, s.cfg.Wf ∧ Memory.Wf (fbBytes s.cfg) s.fb ∧ s.initOk = true ∧
    InRange .r1 s.cfg 7 15 := ⟨block 16 8 [3] .r0, by decide⟩
theorem witness_ClearDisplayIsConsistent : ∃ s : State, s.cfg.Wf ∧ Memory.Wf (fbBytes s.cfg) s.fb ∧ s.initOk = true ∧
    InRange s.rot s.cfg 15 7 := ⟨block 16 8 [3] .r0, by decide⟩
theorem witness_FrameSizes : State.reset.cfg.Wf ∧ State.reset.initOk = true := by decide
theorem witness_RefreshFrameIsReadOffTheWire : (block 16 8 [3] .r0).cfg.Wf ∧ (block 16 8 [3] .r0).initOk = true := by decide
theorem witness_RefreshIgnoresTheRotation : (block 16 8 [3] .r1).cfg.Wf := by decide
theorem witness_RowPixelsLeaveInColumnOrder :
    (block 16 8 [3] .r1).cfg.Wf ∧ (block 16 8 [3] .r1).initOk = true ∧
    (block 16 8 [3] .r1).cfg.setLut = defaultSetLut ∧ 7 < (block 16 8 [3] .r1).cfg.h := by decide
theorem witness_PolarityFlipsExactlyOncePerBusCommand : ∃ s t, s.resetIn = none ∧ step s = .next t ∧ s.phase = .idle :=
  ⟨withPort good [0x40000000], _, rfl, rfl, rfl⟩
theorem witness_PolarityFlipsExactlyOncePerBusCommand_fine : ∃ s t, s.resetIn = none ∧ fineStep s = .next t ∧ s.phase = .cFlip :=
  ⟨{ State.reset with phase := .cFlip, busy := true, cs := true }, _, rfl, rfl, rfl⟩
theorem witness_PolarityAlternates : ∃ s, Inv s ∧ Accepts s ∧ s.initOk = true ∧
    s.port = [0x40000000, 0x00000000] ++ 0x50000000 :: [0x40000000] ∧ isBusWord 0x50000000 = true :=
  ⟨withPort good [0x40000000, 0x00000000, 0x50000000, 0x40000000], inv_port inv_good _, accepts_good _, rfl, rfl, by decide⟩
theorem witness_PhaseTableRunsTheBusCommands :
    State.reset.cfg.Wf ∧ State.reset.phase = .idle ∧ State.reset.busy = false ∧ State.reset.initOk = true := by decide
theorem witness_MicroStepsRefineTheAtomicCommand_clear : ∃ s, Inv s ∧ Accepts s ∧ s.initOk = true ∧ s.port = 0x40000000 :: [] ∧
    decode 0x40000000 = .ok .clearDisplay :=
  ⟨withPort good [0x40000000], inv_port inv_good _, accepts_good _, rfl, rfl, by decide⟩
theorem witness_MicroStepsRefineTheAtomicCommand_refresh : ∃ s, Inv s ∧ Accepts s ∧ s.initOk = true ∧ s.port = 0x50000000 :: [] ∧
    decode 0x50000000 = .ok .refreshDisplay :=
  ⟨withPort good [0x50000000], inv_port inv_good _, accepts_good _, rfl, rfl, by decide⟩
theorem witness_StepAnswersAndKeepsTheInvariant : Inv inRowData ∧ Inv (withPort good [0x50000000]) :=
  ⟨inv_inRowData, inv_port inv_good _⟩
theorem witness_FineStepAnswersAndKeepsTheInvariant : Inv inRowData ∧ Inv (withPort good [0x50000000]) :=
  ⟨inv_inRowData, inv_port inv_good _⟩

end Sys2Proof.Machine.Tests
end

section
/-! What a command, a micro-step and a step that answers a next state can do, said once for the state's registers: the
configuration, INIT_OK, the error record and the three lines (10_state.md R25 to R29). -/

namespace Sys2Proof.Machine

/-! ### What each command answers, once initialised -/

/-- Flipping the polarity and emitting events do not interfere. -/
theorem flipVcom_emitAll (es : List PinEvent) (s : State) : flipVcom (emitAll es s) = emitAll es (flipVcom s) := by
  simp only [emitAll_eq, flipVcom]

/-- 40_framebuffer.md R105: at a located pixel, one byte is rewritten. -/
theorem exec_setPixel_located {x y : Int} {v : Bit} {s : State} {i k : Nat} (hi : s.initOk = true)
    (hl : locate s.rot s.cfg x y = some (i, k)) (hlt : i < fbBytes s.cfg) :
    exec (.setPixel x y v) s = .next (respond true false
      { s with fb := Memory.store s.fb i (withPixel s.cfg k v (Memory.lookup s.fb i)) }) := by
  simp only [exec, execSetPixel, requireInit_of_ok hi, hl, fbRead_of_lt hlt]
  change finish (fbWrite i _ s >>= _) = _
  rw [fbWrite_of_lt hlt]
  rfl

/-- 40_framebuffer.md R106: at a located pixel, its value is responded. -/
theorem exec_getPixel_located {x y : Int} {s : State} {i k : Nat} (hi : s.initOk = true)
    (hl : locate s.rot s.cfg x y = some (i, k)) (hlt : i < fbBytes s.cfg) :
    exec (.getPixel x y) s = .next (respond true (pixelOf s.cfg k (Memory.lookup s.fb i)) s) := by
  simp only [exec, execGetPixel, requireInit_of_ok hi, hl, fbRead_of_lt hlt]
  rfl

/-- 40_framebuffer.md R110: a clipped SET_PIXEL only responds. -/
theorem exec_setPixel_clipped {x y : Int} {v : Bit} {s : State} (hi : s.initOk = true)
    (hl : locate s.rot s.cfg x y = none) : exec (.setPixel x y v) s = .next (respond true false s) := by
  simp only [exec, execSetPixel, requireInit_of_ok hi, hl]

/-- 40_framebuffer.md R110: a clipped GET_PIXEL only responds the off value. -/
theorem exec_getPixel_clipped {x y : Int} {s : State} (hi : s.initOk = true)
    (hl : locate s.rot s.cfg x y = none) : exec (.getPixel x y) s = .next (respond true offValue s) := by
  simp only [exec, execGetPixel, requireInit_of_ok hi, hl]

theorem exec_setRotation_ok {s : State} (r : Rotation) (hi : s.initOk = true) :
    exec (.setRotation r) s = .next (respond true false { s with rot := r }) := by
  simp only [exec, execSetRotation, requireInit_of_ok hi]

/-- 42_framer.md R154: CLEAR_DISPLAY sends its frame, flips the polarity and fills the framebuffer. -/
theorem exec_clearDisplay_ok {s : State} (hi : s.initOk = true) : ∃ m,
    exec .clearDisplay s = .next (respond true false
      { emitAll (transaction s.cfg.csActive (clearFrame s)) (flipVcom s) with fb := m }) ∧
    (Memory.Wf (fbBytes s.cfg) s.fb → Memory.Wf (fbBytes s.cfg) m ∧ ∀ a < fbBytes s.cfg, Memory.lookup m a = 0xFF) := by
  have hsent : deassertCs (flipVcom (txLsb 0x00 (txMsb (clearCommandByte s.cfg s.vcom) (assertCs s)))) =
      emitAll (transaction s.cfg.csActive (clearFrame s)) (flipVcom s) := by
    rw [← flipVcom_emitAll]; rfl
  have hexec : exec .clearDisplay s =
      finish (clearBits (deassertCs (flipVcom (txLsb 0x00 (txMsb (clearCommandByte s.cfg s.vcom) (assertCs s))))) >>=
        fun t => .ok (respond true false t)) := by
    simp only [exec, execClearDisplay, requireInit_of_ok hi]
    rfl
  obtain ⟨m, hm, hw⟩ := clearBits_ok (emitAll (transaction s.cfg.csActive (clearFrame s)) (flipVcom s))
  refine ⟨m, by rw [hexec, hsent, hm]; rfl, ?_⟩
  simpa [emitAll_eq] using hw

/-- 42_framer.md R155: REFRESH_DISPLAY sends its frame and flips the polarity. -/
theorem exec_refreshDisplay_ok {s : State} (hc : s.cfg.Wf) (hi : s.initOk = true) :
    exec .refreshDisplay s = .next (respond true false
      (emitAll (transaction s.cfg.csActive (refreshFrame s)) (flipVcom s))) := by
  have hhead : flipVcom (txMsb (writeCommandByte s.cfg s.vcom) (assertCs s)) =
      emitAll (⟨.cs, s.cfg.csActive⟩ :: txEvents .msb (writeCommandByte s.cfg s.vcom)) (flipVcom s) := by
    rw [← flipVcom_emitAll, txMsb, txByte_eq_emitAll]; rfl
  generalize hu : flipVcom (txMsb (writeCommandByte s.cfg s.vcom) (assertCs s)) = u at hhead
  have hcfg : u.cfg = s.cfg := by rw [hhead, emitAll_eq]; rfl
  have hfb : u.fb = s.fb := by rw [hhead, emitAll_eq]; rfl
  have hrows := foldlM_sendRow (List.range u.cfg.h) u fun i hr => row_le (hcfg ▸ hc) (List.mem_range.mp hr)
  have hexec : exec .refreshDisplay s = finish ((List.range u.cfg.h).foldlM (fun t i => sendRow i t) u >>=
      fun t => .ok (respond true false (deassertCs (txMsb 0x00 t)))) := by
    simp only [exec, execRefreshDisplay, requireInit_of_ok hi, ← hu]
    rfl
  have hevents : transaction s.cfg.csActive (refreshFrame s) =
      (⟨.cs, s.cfg.csActive⟩ :: txEvents .msb (writeCommandByte s.cfg s.vcom)) ++
        frameEvents ((List.range s.cfg.h).flatMap (rowFrame s)) ++ txEvents .msb 0x00 ++ [⟨.cs, !s.cfg.csActive⟩] := by
    simp [transaction_eq, refreshFrame, frameEvents]
  rw [hexec, hrows, funext (rowFrame_congr hcfg hfb), hcfg, hevents]
  simp only [emitAll_append, ← hhead]
  have hlast (t : State) (ht : t.cfg = s.cfg) : deassertCs (txMsb 0x00 t) =
      emitAll [⟨.cs, !s.cfg.csActive⟩] (emitAll (txEvents .msb 0x00) t) := by
    rw [← ht, ← txByte_eq_emitAll]; rfl
  rw [← hlast _ (by rw [emitAll_eq, ← hcfg])]
  rfl

/-- R202, R215: a command of an initialised block completes. It writes at most the framebuffer, the rotation and the
polarity, emits some events, and responds once. -/
theorem exec_completes (i : Instr) {s : State} (hc : s.cfg.Wf) (hi : s.initOk = true) : ∃ fb rot vcom es d,
    exec i s = .next (respond true d (emitAll es { s with fb := fb, rot := rot, vcom := vcom })) := by
  cases i with
  | setPixel x y v =>
    cases hl : locate s.rot s.cfg x y with
    | none => exact ⟨_, _, _, [], _, exec_setPixel_clipped hi hl⟩
    | some p => exact ⟨_, _, _, [], _, exec_setPixel_located hi hl (locate_lt hc hl).1⟩
  | getPixel x y =>
    cases hl : locate s.rot s.cfg x y with
    | none => exact ⟨_, _, _, [], _, exec_getPixel_clipped hi hl⟩
    | some p => exact ⟨_, _, _, [], _, exec_getPixel_located hi hl (locate_lt hc hl).1⟩
  | setRotation r => exact ⟨_, _, _, [], _, exec_setRotation_ok r hi⟩
  | clearDisplay =>
    obtain ⟨m, hm, -⟩ := exec_clearDisplay_ok hi
    refine ⟨m, s.rot, !s.vcom, transaction s.cfg.csActive (clearFrame s), false, hm.trans ?_⟩
    simp only [emitAll_eq, flipVcom]
  | refreshDisplay => exact ⟨_, _, _, _, _, exec_refreshDisplay_ok hc hi⟩

/-! ### The cases of an accepted word and of a step -/

/-- 60_exceptions.md R203: a word raises one of the two errors, or runs the command it decodes to. -/
theorem runWord_cases (c : Word) (s : State) :
    (s.initOk = false ∧ runWord c s = .next (raiseError .notInitialised s)) ∨
    (s.initOk = true ∧ (∃ e, decode c = .error e) ∧ runWord c s = .next (raiseError .illegalCommand s)) ∨
    (s.initOk = true ∧ ∃ i, decode c = .ok i ∧ runWord c s = exec i s) := by
  unfold runWord
  cases hi : s.initOk with
  | false => exact .inl ⟨rfl, rfl⟩
  | true =>
    cases hd : decode c with
    | error e => exact .inr (.inl ⟨rfl, ⟨e, rfl⟩, rfl⟩)
    | ok i => exact .inr (.inr ⟨rfl, i, rfl, rfl⟩)

/-- A step that answers a next state resets the block, waits for a word, takes one, or goes on with a command. -/
theorem stepWith_cases {take : Word → State → Result} {s t : State} (h : stepWith take s = .next t) :
    (∃ d, s.resetIn = some d ∧ t = applyReset d s) ∨
    (s.resetIn = none ∧ s.phase = .idle ∧ s.port = [] ∧ t = s) ∨
    (s.resetIn = none ∧ s.phase = .idle ∧ ∃ c rest, s.port = c :: rest ∧ take c { s with port := rest } = .next t) ∨
    (s.resetIn = none ∧ s.phase ≠ .idle ∧ bitStep s = .next t) := by
  have hc := wf_of_stepWith h
  cases hr : s.resetIn with
  | some d =>
    rw [stepWith_reset hc hr] at h
    cases h
    exact .inl ⟨d, rfl, rfl⟩
  | none =>
    refine .inr ?_
    by_cases hp : s.phase = .idle
    · cases hq : s.port with
      | nil =>
        rw [stepWith_wait ⟨hc, hp, hr⟩ hq] at h
        cases h
        exact .inl ⟨rfl, hp, rfl, rfl⟩
      | cons c rest =>
        rw [stepWith_accept ⟨hc, hp, hr⟩ hq] at h
        exact .inr (.inl ⟨rfl, hp, c, rest, rfl, hr ▸ h⟩)
    · rw [stepWith_running hc hr hp] at h
      exact .inr (.inr ⟨rfl, hp, h⟩)

/-! ### What every step without a reset keeps -/

/-- What holds between a state and its successor when no reset is asserted. -/
structure Evolves (s t : State) : Prop where
  /-- The configuration constants are read-only (10_state.md R29). -/
  cfg : t.cfg = s.cfg
  /-- Only reset writes INIT_OK (R25). -/
  initOk : t.initOk = s.initOk
  /-- A recorded error and its cause stay (R26). -/
  sticky : s.err = true → t.err = true ∧ t.errCause = s.errCause
  /-- The lines follow the events emitted (R27). -/
  lines : ∃ es, t.trace = s.trace ++ es ∧ t.cs = levelAfter .cs s.cs es ∧ t.clk = levelAfter .clk s.clk es ∧
    t.data = levelAfter .data s.data es

/-- A change of other fields only, with no event. -/
theorem evolves_of_eq {s t : State} (hcfg : t.cfg = s.cfg) (hinit : t.initOk = s.initOk)
    (hsticky : s.err = true → t.err = true ∧ t.errCause = s.errCause) (htrace : t.trace = s.trace) (hcs : t.cs = s.cs)
    (hclk : t.clk = s.clk) (hdata : t.data = s.data) : Evolves s t :=
  ⟨hcfg, hinit, hsticky, [], by simp [htrace], hcs, hclk, hdata⟩

theorem evolves_refl (s : State) : Evolves s s := evolves_of_eq rfl rfl (fun h => ⟨h, rfl⟩) rfl rfl rfl rfl

/-- 60_exceptions.md R201: an error is latched, and a later one does not overwrite its cause. -/
theorem evolves_raiseError (e : ErrCause) (s : State) : Evolves s (raiseError e s) :=
  evolves_of_eq rfl rfl (fun h => ⟨rfl, if_pos h⟩) rfl rfl rfl rfl

/-- A command raises no error once the block is initialised, and its events move the lines. -/
theorem evolves_exec {i : Instr} {s t : State} (hc : s.cfg.Wf) (hi : s.initOk = true) (h : exec i s = .next t) :
    Evolves s t := by
  obtain ⟨fb, rot, vcom, es, d, he⟩ := exec_completes i hc hi
  rw [he, emitAll_eq] at h
  cases h
  exact ⟨rfl, rfl, fun h => ⟨h, rfl⟩, es, rfl, rfl, rfl, rfl⟩

theorem evolves_runWord {c : Word} {s t : State} (hc : s.cfg.Wf) (h : runWord c s = .next t) : Evolves s t := by
  obtain ⟨-, he⟩ | ⟨-, -, he⟩ | ⟨hi, i, -, he⟩ := runWord_cases c s
  · cases he.symm.trans h; exact evolves_raiseError _ s
  · cases he.symm.trans h; exact evolves_raiseError _ s
  · exact evolves_exec hc hi (he.symm.trans h)

theorem evolves_acceptWord {c : Word} {s t : State} (hc : s.cfg.Wf) (h : acceptWord c s = .next t) : Evolves s t := by
  obtain ⟨he, -⟩ | ⟨-, -, he⟩ | ⟨-, -, he⟩ := acceptWord_cases c s
  · exact evolves_runWord hc (he.symm.trans h)
  · cases he.symm.trans h; exact evolves_of_eq rfl rfl (fun h => ⟨h, rfl⟩) rfl rfl rfl rfl
  · cases he.symm.trans h; exact evolves_of_eq rfl rfl (fun h => ⟨h, rfl⟩) rfl rfl rfl rfl

/-- A phase that transmits no byte leaves the clock and the data line alone. -/
theorem levelAfter_phaseEvents (s : State) {p : Pin} (hp : p ≠ .cs) (l : Bit) : levelAfter p l (phaseEvents s) = l := by
  unfold phaseEvents
  cases s.phase <;> simp [levelAfter, hp.symm]

/-- Going to the next phase moves no register that `Evolves` speaks of. -/
theorem evolves_nextPhase {s t : State} (h : Evolves s t) : Evolves s (nextPhase t) := by
  rw [nextPhase_eq]
  exact ⟨h.cfg, h.initOk, h.sticky, h.lines⟩

theorem evolves_bitStep {s t : State} (h : bitStep s = .next t) : Evolves s t := by
  obtain ⟨-, u, hu, rfl⟩ | ⟨-, -, b, r, o, rfl⟩ | ⟨-, -, rfl⟩ := bitStep_cases h
  case inl =>
    obtain ⟨v, hv, heq, -⟩ := phaseAction_cases s
    cases hu.symm.trans hv
    apply evolves_nextPhase
    rw [heq]
    exact ⟨rfl, rfl, fun h => ⟨h, rfl⟩, phaseEvents s, rfl, rfl, (levelAfter_phaseEvents s (by decide) _).symm,
      (levelAfter_phaseEvents s (by decide) _).symm⟩
  case inr.inl => exact ⟨rfl, rfl, fun h => ⟨h, rfl⟩, _, rfl, rfl, rfl, rfl⟩
  case inr.inr => exact evolves_nextPhase ⟨rfl, rfl, fun h => ⟨h, rfl⟩, _, rfl, rfl, rfl, rfl⟩

/-- Whatever the block does with a word, if that evolves its state then so does every step without a reset. -/
theorem evolves_stepWith {take : Word → State → Result}
    (htake : ∀ {c s t}, s.cfg.Wf → take c s = .next t → Evolves s t) {s t : State} (hr : s.resetIn = none)
    (h : stepWith take s = .next t) : Evolves s t := by
  obtain ⟨d, hd, -⟩ | ⟨-, -, -, rfl⟩ | ⟨-, -, c, rest, -, hw⟩ | ⟨-, -, hb⟩ := stepWith_cases h
  · simp [hr] at hd
  · exact evolves_refl t
  · obtain ⟨hcfg, hinit, hsticky, hlines⟩ := htake (s := { s with port := rest }) (wf_of_stepWith h :) hw
    exact ⟨hcfg, hinit, hsticky, hlines⟩
  · exact evolves_bitStep hb

/-- Every step of either machine without a reset. -/
theorem evolves_of_step {s t : State} (hr : s.resetIn = none) (h : step s = .next t ∨ fineStep s = .next t) :
    Evolves s t := by
  obtain h | h := h
  · exact evolves_stepWith evolves_runWord hr h
  · exact evolves_stepWith evolves_acceptWord hr h

/-- A step of either machine that looks at an asserted reset is that reset (70_reset_and_hazards.md R230). -/
theorem eq_applyReset_of_step {s t : State} {d : ResetDraw} (hr : s.resetIn = some d)
    (h : step s = .next t ∨ fineStep s = .next t) : t = applyReset d s := by
  obtain h | h := h
  · cases (stepWith_reset (wf_of_stepWith h) hr).symm.trans h; rfl
  · cases (stepWith_reset (wf_of_stepWith h) hr).symm.trans h; rfl

/-! ### The obligations of 10_state.md -/

/-- Settles O14: every step without a reset latches the error record. -/
theorem errorRecordIsSticky : Obligations.ErrorRecordIsSticky := by
  unfold Obligations.ErrorRecordIsSticky
  exact fun s t herr hr h => (evolves_of_step hr h).sticky herr

/-- Settles O15: a reset keeps the configuration, and any other step keeps INIT_OK too. -/
theorem onlyResetWritesInitOk : Obligations.OnlyResetWritesInitOk := by
  unfold Obligations.OnlyResetWritesInitOk
  intro s t h
  refine ⟨?_, fun hr => (evolves_of_step hr h).initOk⟩
  cases hr : s.resetIn with
  | none => exact (evolves_of_step hr h).cfg
  | some d => rw [eq_applyReset_of_step hr h, applyReset_cfg]

/-- Settles O34: every step without a reset emits a list of events that the lines follow. -/
theorem pinsHoldTheirLastEmittedLevel : Obligations.PinsHoldTheirLastEmittedLevel := by
  unfold Obligations.PinsHoldTheirLastEmittedLevel
  exact fun s t hr h => (evolves_of_step hr h).lines

/-- STATUS is the cause's code with the three flags appended below it (10_state.md R28). -/
theorem status_eq_concat (s : State) :
    status s = (((0#3 ++ errCauseCode s.errCause).concat s.err).concat s.initOk).concat s.busy := rfl

/-- STATUS from bit 3 up: the cause's code, then zeros (10_state.md R28). -/
theorem getLsbD_status_add_three (s : State) (k : Nat) :
    (status s).getLsbD (3 + k) = (errCauseCode s.errCause).getLsbD k := by
  rw [status_eq_concat, Nat.add_comm 3 k]
  simp only [BitVec.getLsbD_concat_succ]
  rw [BitVec.getLsbD_append, BitVec.getLsbD_zero]
  split
  · rfl
  · exact (BitVec.getLsbD_of_ge _ k (by omega)).symm

/-- The cause's code stands in bits 4:3 of STATUS. -/
theorem extractLsb'_status_cause (s : State) : (status s).extractLsb' 3 2 = errCauseCode s.errCause := by
  ext j hj
  rw [BitVec.getElem_extractLsb', getLsbD_status_add_three, BitVec.getLsbD_eq_getElem]

/-- Bits 7:5 of STATUS read as 0. -/
theorem extractLsb'_status_reserved (s : State) : (status s).extractLsb' 5 3 = 0#3 := by
  ext j hj
  rw [BitVec.getElem_extractLsb', show 5 + j = 3 + (2 + j) by omega, getLsbD_status_add_three,
    BitVec.getLsbD_of_ge _ _ (by omega), BitVec.getElem_zero]

/-- Settles O13: the fields of STATUS, and the cause's code by its three values. -/
theorem statusShowsItsFields : Obligations.StatusShowsItsFields := by
  unfold Obligations.StatusShowsItsFields
  intro s
  refine ⟨?_, ?_, ?_, (extractLsb'_status_cause s).trans ?_, extractLsb'_status_reserved s⟩
  · simp only [status_eq_concat, BitVec.getLsbD_concat_zero]
  · simp only [status_eq_concat, BitVec.getLsbD_concat_succ, BitVec.getLsbD_concat_zero]
  · simp only [status_eq_concat, BitVec.getLsbD_concat_succ, BitVec.getLsbD_concat_zero]
  · cases s.errCause <;> rfl

end Sys2Proof.Machine
end

section
/-! The invariant at every step and micro-step (20_memory.md R58, 10_state.md R26 to R33, 42_framer.md R160): one lemma per
update of the state that keeps it, then the phase table, then either machine. -/

namespace Sys2Proof.Machine

/-! ### Updates that keep the invariant -/

/-- Outside a transmitting phase the bit count is 0 and the clock is low (10_state.md R32, 41_serializer.md R135). -/
theorem lowClock_of_not_transmits {s : State} (h : Inv s) (ht : transmits s.phase = false) :
    s.bitCount = 0 ∧ s.clk = false := by
  have hn := h.boundary ht
  exact ⟨hn, by simp [h.clk, hn]⟩

theorem inv_respond {s : State} (h : Inv s) (ok d : Bit) : Inv (respond ok d s) := { h with }

theorem inv_setFb {s : State} (h : Inv s) {m : Memory} (hm : Memory.Wf (fbBytes s.cfg) m) : Inv { s with fb := m } :=
  { h with fb := hm }

theorem inv_setRot {s : State} (h : Inv s) (r : Rotation) : Inv { s with rot := r } := { h with }

theorem inv_setPort {s : State} (h : Inv s) (ws : List Word) : Inv { s with port := ws } := { h with }

theorem inv_flipVcom {s : State} (h : Inv s) : Inv (flipVcom s) := { h with }

/-- An error is raised with the cause its two rules give it (60_exceptions.md R202, R203). -/
theorem inv_raiseError {s : State} (h : Inv s) {e : ErrCause} (he : e ≠ .none)
    (hillegal : e = .illegalCommand → s.initOk = true) (hnotInit : e = .notInitialised → s.initOk = false) :
    Inv (raiseError e s) := by
  rw [raiseError_eq]
  cases herr : s.err with
  | true => exact { h with err := by simpa using h.err.mp herr }
  | false => exact { h with err := by simpa using he, illegal := hillegal, notInit := hnotInit }

theorem inv_applyReset {s : State} (h : Inv s) (d : ResetDraw) : Inv (applyReset d s) where
  cfg := h.cfg
  fb := ofBytes_wf _ _
  err := by simp
  illegal := by simp
  notInit := by simp
  busy := by simp
  running := by simp
  count := by simp
  boundary := by simp
  clk := by simp
  cs := by simp [csAsserted]
  row := by simp [inRow]
  col := by simp

/-- A whole transaction leaves chip select deasserted and a low clock low (42_framer.md R151, 41_serializer.md R135). -/
theorem levelAfter_transaction_cs (a : Bit) (f : List (BitOrder × Byte)) (l : Bit) :
    levelAfter .cs l (transaction a f) = !a := by
  rw [transaction_eq, levelAfter_append]; rfl

theorem levelAfter_transaction_clk (a : Bit) (f : List (BitOrder × Byte)) :
    levelAfter .clk false (transaction a f) = false := by
  rw [transaction_eq, List.cons_append, levelAfter_cons, levelAfter_append]
  exact congrArg (levelAfter .clk · _) (levelAfter_frameEvents_clk f)

theorem inv_transaction {s : State} (h : Inv s) (hp : s.phase = .idle) (f : List (BitOrder × Byte)) :
    Inv (emitAll (transaction s.cfg.csActive f) s) := by
  obtain ⟨hn, hclk⟩ := lowClock_of_not_transmits h (by rw [hp]; rfl)
  rw [emitAll_eq]
  exact { h with
    clk := by simp only [hclk, levelAfter_transaction_clk, hn]; rfl
    cs := by simp [levelAfter_transaction_cs, hp, csAsserted] }

/-! ### A word that is accepted -/

/-- Every command of an initialised block completes at IDLE with the invariant. -/
theorem inv_exec (i : Instr) {s : State} (h : Inv s) (hp : s.phase = .idle) (hi : s.initOk = true) :
    ∃ t, exec i s = .next t ∧ Inv t := by
  cases i with
  | setPixel x y v =>
    cases hl : locate s.rot s.cfg x y with
    | none => exact ⟨_, exec_setPixel_clipped hi hl, inv_respond h _ _⟩
    | some p =>
      have hlt := (locate_lt h.cfg hl).1
      exact ⟨_, exec_setPixel_located hi hl hlt, inv_respond (inv_setFb h (store_wf h.fb hlt _)) _ _⟩
  | getPixel x y =>
    cases hl : locate s.rot s.cfg x y with
    | none => exact ⟨_, exec_getPixel_clipped hi hl, inv_respond h _ _⟩
    | some p => exact ⟨_, exec_getPixel_located hi hl (locate_lt h.cfg hl).1, inv_respond h _ _⟩
  | setRotation r => exact ⟨_, exec_setRotation_ok r hi, inv_respond (inv_setRot h r) _ _⟩
  | clearDisplay =>
    have hsent := inv_transaction (inv_flipVcom h) hp (clearFrame s)
    obtain ⟨m, hm, hwf⟩ := exec_clearDisplay_ok hi
    refine ⟨_, hm, inv_respond (inv_setFb hsent ?_) _ _⟩
    rw [emitAll_eq]
    exact (hwf h.fb).1
  | refreshDisplay =>
    exact ⟨_, exec_refreshDisplay_ok h.cfg hi, inv_respond (inv_transaction (inv_flipVcom h) hp _) _ _⟩

theorem inv_runWord (c : Word) {s : State} (h : Inv s) (hp : s.phase = .idle) : ∃ t, runWord c s = .next t ∧ Inv t := by
  obtain ⟨hi, he⟩ | ⟨hi, -, he⟩ | ⟨hi, i, -, he⟩ := runWord_cases c s
  · exact ⟨_, he, inv_raiseError h (by decide) (by simp) (fun _ => hi)⟩
  · exact ⟨_, he, inv_raiseError h (by decide) (fun _ => hi) (by simp)⟩
  · rw [he]; exact inv_exec i h hp hi

/-- A bus command enters its first phase with chip select still deasserted (42_framer.md R160). -/
theorem inv_enterPhase {s : State} (h : Inv s) (hp : s.phase = .idle) (hi : s.initOk = true) {p : Phase}
    (hfirst : p = .cCs ∨ p = .rCs) : Inv (enterPhase p s) := by
  have hn : s.bitCount = 0 := h.boundary (by rw [hp]; rfl)
  have hcs : s.cs = !s.cfg.csActive := by simpa [hp, csAsserted] using h.cs
  obtain rfl | rfl := hfirst
  all_goals exact { h with
    busy := rfl
    running := fun _ => hi
    boundary := fun _ => hn
    cs := hcs
    row := by simp [inRow]
    col := by simp }

theorem inv_acceptWord (c : Word) {s : State} (h : Inv s) (hp : s.phase = .idle) :
    ∃ t, acceptWord c s = .next t ∧ Inv t := by
  obtain ⟨he, -⟩ | ⟨hi, -, he⟩ | ⟨hi, -, he⟩ := acceptWord_cases c s
  · rw [he]; exact inv_runWord c h hp
  · exact ⟨_, he, inv_enterPhase h hp hi (.inl rfl)⟩
  · exact ⟨_, he, inv_enterPhase h hp hi (.inr rfl)⟩

/-! ### The next phase -/

/-- A row has at least one byte (00_scope.md R7). -/
theorem bpr_pos {c : Config} (h : c.Wf) : 0 < bpr c := by
  have hw := w_eq h
  obtain ⟨⟨-, hlow, -⟩, -⟩ := h
  omega

/-- Chip select is asserted from the phase that asserts it to the phase that deasserts it (42_framer.md R151). -/
theorem csAsserted_nextPhase (s : State) : csAsserted (nextPhase s).phase =
    (decide (s.phase = .cCs ∨ s.phase = .rCs) ||
      (csAsserted s.phase && decide (s.phase ≠ .cUncs ∧ s.phase ≠ .rUncs))) := by
  unfold nextPhase
  cases hph : s.phase
  case idle => simp [hph, csAsserted]
  case rData => dsimp only; split <;> rfl
  case rEol => dsimp only; split <;> rfl
  all_goals rfl

/-- Only DONE leads to IDLE. -/
theorem nextPhase_phase_eq_idle {s : State} (hp : s.phase ≠ .idle) : (nextPhase s).phase = .idle ↔ s.phase = .done := by
  unfold nextPhase
  cases hph : s.phase
  case idle => exact absurd hph hp
  case rData => dsimp only; split <;> simp
  case rEol => dsimp only; split <;> simp
  all_goals simp

/-- The row counter of a row's phases starts at 0 and is compared with `H`. -/
theorem nextPhase_row_lt {s : State} (hc : s.cfg.Wf) (hrow : inRow s.phase = true → s.row < s.cfg.h)
    (hflip : s.phase = .rFlip → s.row = 0) (hin : inRow (nextPhase s).phase = true) : (nextPhase s).row < s.cfg.h := by
  obtain ⟨-, ⟨hh, -⟩, -⟩ := hc
  unfold nextPhase at hin ⊢
  cases hph : s.phase <;> simp only [hph] at hin ⊢
  case rFlip => rw [hflip hph]; exact hh
  case rAddr => exact hrow (by rw [hph]; rfl)
  case rData => exact hrow (by rw [hph]; rfl)
  case rEol =>
    split at hin
    · assumption
    · cases hin
  all_goals cases hin

/-- The byte counter of the row's bytes starts at 0 and is compared with `BPR`. -/
theorem nextPhase_col_lt {s : State} (hc : s.cfg.Wf) (hdata : (nextPhase s).phase = .rData) :
    (nextPhase s).col < bpr s.cfg := by
  have hbpr := bpr_pos hc
  unfold nextPhase at hdata ⊢
  cases hph : s.phase <;> simp only [hph] at hdata ⊢
  case rAddr => exact hbpr
  case rData =>
    split at hdata
    · assumption
    · cases hdata
  case rEol => split at hdata <;> cases hdata
  all_goals cases hdata

/-! ### A micro-step -/

/-- State `s` with the action of its phase complete, at a byte boundary, before the phase moves on. -/
def completed (s : State) (fb : Memory) (vcom : Bit) (trace : List PinEvent) (completions : List Completion) : State :=
  { s with
    fb := fb
    vcom := vcom
    trace := trace
    completions := completions
    cs := levelAfter .cs s.cs (phaseEvents s)
    clk := false
    bitCount := 0
    busy := if s.phase = .done then false else s.busy
    row := if s.phase = .rFlip then 0 else s.row }

section
variable {s : State} {fb : Memory} {vcom : Bit} {trace : List PinEvent} {completions : List Completion}

theorem completed_busy (h : Inv s) (hp : s.phase ≠ .idle) :
    (completed s fb vcom trace completions).busy = decide (s.phase ≠ .done) := by
  by_cases hd : s.phase = .done <;> simp [completed, hd, h.busy, hp]

theorem completed_row_lt (h : s.row < s.cfg.h) : (completed s fb vcom trace completions).row < s.cfg.h := by
  simp only [completed]
  split <;> omega

end

/-- A transmitting phase emits no chip-select event. -/
theorem phaseEvents_of_transmits {s : State} (ht : transmits s.phase = true) : phaseEvents s = [] := by
  unfold phaseEvents
  cases hph : s.phase <;> simp [hph, transmits] at ht ⊢

/-- The events of a phase put chip select at the level the next phase starts with. -/
theorem levelAfter_phaseEvents_cs {s u : State} (h : Inv s) (hu : u.phase = s.phase) :
    levelAfter .cs s.cs (phaseEvents s) =
      if csAsserted (nextPhase u).phase then s.cfg.csActive else !s.cfg.csActive := by
  have hcs := h.cs
  rw [csAsserted_nextPhase, hu]
  unfold phaseEvents
  cases hph : s.phase <;> simp [hph, csAsserted, levelAfter] at hcs ⊢ <;> exact hcs

/-- A phase that completes its action moves on with the invariant. -/
theorem inv_nextPhase_completed {s : State} (h : Inv s) (hp : s.phase ≠ .idle) {fb : Memory}
    (hfb : Memory.Wf (fbBytes s.cfg) fb) (vcom : Bit) (trace : List PinEvent) (completions : List Completion) :
    Inv (nextPhase (completed s fb vcom trace completions)) := by
  have hidle : (nextPhase (completed s fb vcom trace completions)).phase = .idle ↔ s.phase = .done :=
    nextPhase_phase_eq_idle hp
  rw [nextPhase_eq]
  exact {
    cfg := h.cfg
    fb := hfb
    err := h.err
    illegal := h.illegal
    notInit := h.notInit
    busy := by simp only [ne_eq, hidle, completed_busy h hp]
    running := fun _ => h.running hp
    count := Nat.zero_le _
    boundary := fun _ => rfl
    clk := rfl
    cs := levelAfter_phaseEvents_cs h rfl
    row := nextPhase_row_lt h.cfg (fun hin => completed_row_lt (h.row hin)) (fun hf => if_pos hf)
    col := nextPhase_col_lt h.cfg }

/-- The byte a phase transmits is always inside the framebuffer (20_memory.md R58). -/
theorem phaseByte_ok {s : State} (h : Inv s) {o : BitOrder} {e : Except Fault Byte} (hb : phaseByte s = some (o, e)) :
    ∃ b, e = .ok b := by
  unfold phaseByte at hb
  cases hph : s.phase <;> simp only [hph] at hb <;> cases hb
  case rData =>
    have hcol := h.col hph
    have hle := row_le h.cfg (h.row (by rw [hph]; rfl))
    exact ⟨_, fbRead_of_lt (by omega)⟩
  all_goals exact ⟨_, rfl⟩

/-- With the invariant, a micro-step always answers. -/
theorem bitStep_answers {s : State} (h : Inv s) : ∃ t, bitStep s = .next t := by
  unfold bitStep
  cases hb : phaseByte s with
  | none =>
    obtain ⟨u, hu, -⟩ := phaseAction_cases s
    exact ⟨nextPhase u, by simp only [hu]; rfl⟩
  | some p =>
    obtain ⟨b, hok⟩ := phaseByte_ok h hb
    dsimp only
    rw [hok]
    split
    · exact ⟨_, rfl⟩
    · split <;> exact ⟨_, rfl⟩

/-- A micro-step sends one bit group of its byte, or completes its phase and moves on. -/
theorem inv_bitStep {s : State} (h : Inv s) (hp : s.phase ≠ .idle) : ∃ t, bitStep s = .next t ∧ Inv t := by
  obtain ⟨t, ht⟩ := bitStep_answers h
  refine ⟨t, ht, ?_⟩
  obtain ⟨htr, u, hu, rfl⟩ | ⟨htr, hlt, b, r, o, rfl⟩ | ⟨htr, -, rfl⟩ := bitStep_cases ht
  · obtain ⟨hn, hclk⟩ := lowClock_of_not_transmits h htr
    obtain ⟨v, hv, heq, hwf⟩ := phaseAction_cases s
    cases hu.symm.trans hv
    have hcompleted : u = completed s u.fb u.vcom u.trace u.completions := by
      rw [heq, completed, hn, hclk]
    rw [hcompleted]
    exact inv_nextPhase_completed h hp (hwf h.fb) _ _ _
  · exact { h with
      count := hlt
      boundary := by simp [htr]
      clk := by simp }
  · have hcompleted : { s with trace := s.trace ++ [⟨.clk, false⟩], clk := false, bitCount := 0 } =
        completed s s.fb s.vcom (s.trace ++ [⟨.clk, false⟩]) s.completions := by
      have hd : s.phase ≠ .done := by intro hd; simp [hd, transmits] at htr
      have hf : s.phase ≠ .rFlip := by intro hf; simp [hf, transmits] at htr
      rw [completed, phaseEvents_of_transmits htr, if_neg hd, if_neg hf]
      rfl
    rw [hcompleted]
    exact inv_nextPhase_completed h hp h.fb _ _ _

/-! ### A step of either machine -/

/-- A step keeps the invariant when the block answers every word it accepts at IDLE with the invariant. -/
theorem inv_stepWith {take : Word → State → Result}
    (htake : ∀ (c : Word) {s : State}, Inv s → s.phase = .idle → ∃ t, take c s = .next t ∧ Inv t) {s : State}
    (h : Inv s) : ∃ t, stepWith take s = .next t ∧ Inv t := by
  cases hr : s.resetIn with
  | some d => exact ⟨_, stepWith_reset h.cfg hr, inv_applyReset h d⟩
  | none =>
    by_cases hp : s.phase = .idle
    · cases hq : s.port with
      | nil => exact ⟨s, stepWith_wait ⟨h.cfg, hp, hr⟩ hq, h⟩
      | cons c rest =>
        rw [stepWith_accept ⟨h.cfg, hp, hr⟩ hq]
        exact htake c (inv_setPort h rest) hp
    · rw [stepWith_running h.cfg hr hp]
      exact inv_bitStep h hp

/-- Settles O49: every word accepted at IDLE is answered with the invariant, and so is every micro-step. -/
theorem stepAnswersAndKeepsTheInvariant : Obligations.StepAnswersAndKeepsTheInvariant := by
  unfold Obligations.StepAnswersAndKeepsTheInvariant
  exact fun s h => inv_stepWith inv_runWord h

/-- Settles O50: the same of the finer machine, whose bus commands enter their first phase instead. -/
theorem fineStepAnswersAndKeepsTheInvariant : Obligations.FineStepAnswersAndKeepsTheInvariant := by
  unfold Obligations.FineStepAnswersAndKeepsTheInvariant
  exact fun s h => inv_stepWith inv_acceptWord h

end Sys2Proof.Machine
end

section
/-! The framebuffer's layout (20_memory.md R51 to R57): the index is row-major, a pixel is one bit of one byte that no other
pixel shares, and a row's bits leave in column order. -/

namespace Sys2Proof.Machine

/-! ### The index -/

/-- The second form of the index: the pixel's row-major number, counted in bytes (20_memory.md R52). -/
theorem pixelIndex_eq_div {c : Config} (h : c.Wf) (px py : Nat) : pixelIndex c px py = (py * c.w + px) / 8 := by
  rw [pixelIndex, w_eq h, Nat.mul_left_comm, Nat.mul_add_div (by decide)]

/-- The pixels of one row have the row's `BPR` indices (20_memory.md R51). -/
theorem exists_pixelIndex_eq_iff {c : Config} (h : c.Wf) (py i : Nat) :
    (∃ px < c.w, pixelIndex c px py = i) ↔ py * bpr c ≤ i ∧ i ≤ py * bpr c + bpr c - 1 := by
  have hw := w_eq h
  have hpos := bpr_pos h
  simp only [pixelIndex]
  constructor
  · rintro ⟨px, hpx, rfl⟩
    omega
  · rintro ⟨hlow, hhigh⟩
    exact ⟨8 * (i - py * bpr c), by omega, by omega⟩

/-- Settles O23: the second form, the bound and the row's index set are the lemmas above. -/
theorem pixelIndexIsRowMajor : Obligations.PixelIndexIsRowMajor := by
  unfold Obligations.PixelIndexIsRowMajor
  exact fun c h => ⟨fun px py hpx hpy => ⟨rfl, pixelIndex_eq_div h px py, pixelIndex_lt h hpx hpy⟩,
    fun py i _ => exists_pixelIndex_eq_iff h py i⟩

/-- The row of a pixel of the frame is read off its index. -/
theorem pixelIndex_div_bpr {c : Config} (h : c.Wf) {px : Nat} (hpx : px < c.w) (py : Nat) :
    pixelIndex c px py / bpr c = py := by
  have hw := w_eq h
  rw [pixelIndex, Nat.mul_comm, Nat.mul_add_div (bpr_pos h), Nat.div_eq_of_lt (by omega), Nat.add_zero]

/-- Two pixels of the frame that share a byte differ in their table index. -/
theorem mod_ne_of_pixelIndex_eq {c : Config} (h : c.Wf) {px py qx qy : Nat} (hpx : px < c.w) (hqx : qx < c.w)
    (hne : (px, py) ≠ (qx, qy)) (hidx : pixelIndex c px py = pixelIndex c qx qy) : px % 8 ≠ qx % 8 := by
  have hrow : py = qy := by rw [← pixelIndex_div_bpr h hpx py, hidx, pixelIndex_div_bpr h hqx]
  subst hrow
  have hcol : px ≠ qx := fun hx => hne (by rw [hx])
  simp only [pixelIndex] at hidx
  omega

/-! ### One pixel's bit -/

/-- Two different one-hot bytes share no bit. -/
theorem oneHotBytes_disjoint : ∀ a ∈ oneHotBytes, ∀ b ∈ oneHotBytes, a ≠ b → a &&& b = 0 := by decide

/-- Two entries of a legal mask table share no bit (00_scope.md R7). -/
theorem setMask_and_setMask {c : Config} (h : c.Wf) {j k : Nat} (hj : j < 8) (hk : k < 8) (hjk : j ≠ k) :
    setMask c j &&& setMask c k = 0 := by
  obtain ⟨-, -, -, hlen, hnodup, honehot⟩ := h
  have hget {m : Nat} (hm : m < 8) : setMask c m = c.setLut[m]'(hlen ▸ hm) := List.getD_eq_getElem _ _ _
  rw [hget hj, hget hk]
  refine oneHotBytes_disjoint _ (honehot _ (List.getElem_mem _)) _ (honehot _ (List.getElem_mem _)) fun heq => hjk ?_
  exact hnodup.getElem_inj_iff.mp heq

/-- A byte that shares no bit with a mask lies in the mask's complement. -/
theorem not_and_eq_self {a b : Byte} (h : a &&& b = 0) : ~~~a &&& b = b := by
  ext i hi
  have hbit : (a &&& b)[i] = false := by rw [h]; exact BitVec.getElem_zero hi
  rw [BitVec.getElem_and] at hbit
  rw [BitVec.getElem_and, BitVec.getElem_not]
  cases ha : a[i] with
  | false => rfl
  | true => rw [ha, Bool.true_and] at hbit; rw [hbit]; rfl

/-- Rewriting one pixel of a byte leaves the other seven (20_memory.md R57). -/
theorem pixelOf_withPixel_other {c : Config} (h : c.Wf) {j k : Nat} (hj : j < 8) (hk : k < 8) (hjk : j ≠ k) (v : Bit)
    (b : Byte) : pixelOf c k (withPixel c j v b) = pixelOf c k b := by
  have hdisj := setMask_and_setMask h hj hk hjk
  have hmask : withPixel c j v b &&& setMask c k = b &&& setMask c k := by
    cases v with
    | true => exact BitVec.and_or_distrib_right.trans (by rw [hdisj]; exact BitVec.or_zero)
    | false => exact (BitVec.and_assoc _ _ _).trans (by rw [clrMask, not_and_eq_self hdisj])
  rw [pixelOf, pixelOf, hmask]

/-- Rewriting one pixel of the framebuffer leaves every other one, in its byte or in another (20_memory.md R57). -/
theorem pixelOf_lookup_store_other {c : Config} (h : c.Wf) {m : Memory} (hm : Memory.Wf (fbBytes c) m)
    {px py qx qy : Nat} (hpx : px < c.w) (hqx : qx < c.w) (hne : (px, py) ≠ (qx, qy)) (v : Bit) :
    pixelOf c (qx % 8) (Memory.lookup (Memory.store m (pixelIndex c px py)
        (withPixel c (px % 8) v (Memory.lookup m (pixelIndex c px py)))) (pixelIndex c qx qy)) =
      pixelOf c (qx % 8) (Memory.lookup m (pixelIndex c qx qy)) := by
  by_cases hidx : pixelIndex c px py = pixelIndex c qx qy
  · rw [← hidx, lookup_store_self hm.1]
    exact pixelOf_withPixel_other h (by omega) (by omega) (mod_ne_of_pixelIndex_eq h hpx hqx hne hidx) v _
  · rw [lookup_store_other (Ne.symm hidx)]

/-- The rotation transform names no pixel twice (40_framebuffer.md R103). -/
theorem transform_inj {r : Rotation} {c : Config} {x y x' y' : Int} (h : transform r c x y = transform r c x' y') :
    (x, y) = (x', y') := by
  cases r <;> simp only [transform, Prod.mk.injEq] at h ⊢ <;> omega

/-- Settles O30: a clipped SET_PIXEL writes no byte, and any other rewrites one pixel, which the transform gives to its own
coordinate alone. -/
theorem setPixelLeavesOtherPixels : Obligations.SetPixelLeavesOtherPixels := by
  unfold Obligations.SetPixelLeavesOtherPixels
  intro x y x' y' v s t hc hm hi hin' hne hset
  obtain ⟨qx, qy, hq, hqx, hqy, hl'⟩ := locate_of_inRange hin'
  have hlt' := pixelIndex_lt hc hqx hqy
  by_cases hin : InRange s.rot s.cfg x y
  · obtain ⟨px, py, hp, hpx, hpy, hl⟩ := locate_of_inRange hin
    have hpq : (px, py) ≠ (qx, qy) := by
      rintro ⟨⟩
      exact hne (transform_inj (hp.trans hq.symm))
    cases (exec_setPixel_located hi hl (pixelIndex_lt hc hpx hpy)).symm.trans hset
    refine ⟨_, _, _, exec_getPixel_located hi hl' hlt', exec_getPixel_located hi hl' hlt', rfl, ?_⟩
    exact congrArg (fun d => _ ++ [(⟨true, d⟩ : Completion)]) (pixelOf_lookup_store_other hc hm hpx hqx hpq v)
  · cases (exec_setPixel_clipped hi (locate_of_not_inRange hin)).symm.trans hset
    exact ⟨_, _, _, exec_getPixel_located hi hl' hlt', exec_getPixel_located hi hl' hlt', rfl, rfl⟩

/-! ### A row on the wire -/

/-- The wire bits of a run of a frame's bytes stand at eight bits a byte (41_serializer.md R137). -/
theorem byteBits_flatMap_segment (pre seg post : List (BitOrder × Byte)) :
    (((pre ++ seg ++ post).flatMap fun p => byteBits p.1 p.2).drop (8 * pre.length)).take (8 * seg.length) =
      seg.flatMap fun p => byteBits p.1 p.2 := by
  rw [List.append_assoc, List.flatMap_append, List.flatMap_append, List.drop_left' (byteBits_flatMap_length pre),
    List.take_left' (byteBits_flatMap_length seg)]

/-- Row `py` of a frame stands after the command byte and `py` rows (30_encoding.md R79). -/
theorem refreshFrame_eq_append (s : State) {py : Nat} (h : py < s.cfg.h) : ∃ pre post,
    refreshFrame s = pre ++ rowFrame s py ++ post ∧ pre.length = 1 + py * (bpr s.cfg + 2) := by
  obtain ⟨k, hk⟩ := Nat.exists_eq_add_of_lt h
  refine ⟨(.msb, writeCommandByte s.cfg s.vcom) :: (List.range py).flatMap (rowFrame s),
    ((List.range k).map (py + 1 + ·)).flatMap (rowFrame s) ++ [(.msb, 0x00)], ?_, ?_⟩
  · have hrange : List.range s.cfg.h = List.range py ++ py :: (List.range k).map (py + 1 + ·) := by
      rw [hk, show py + k + 1 = py + 1 + k by omega, List.range_add, List.range_succ, List.append_assoc]
      rfl
    rw [refreshFrame, hrange, List.flatMap_append, List.flatMap_cons]
    simp only [List.cons_append, List.append_assoc]
  · simp [rowFrame_length, Nat.add_comm]

/-- The bits of bytes sent LSB first, numbered eight to a byte (20_memory.md R53). -/
theorem flatMap_byteBits_lsb (g : Nat → Byte) (n : Nat) :
    (List.range n).flatMap (fun j => byteBits .lsb (g j)) =
      (List.range (8 * n)).map fun px => (g (px / 8)).getLsbD (px % 8) := by
  induction n with
  | zero => rfl
  | succ n ih =>
    have hbyte : byteBits .lsb (g n) = (List.range 8).map fun k => (g n).getLsbD k := rfl
    rw [List.range_succ, List.flatMap_append, ih, List.flatMap_singleton, hbyte, Nat.mul_succ, List.range_add,
      List.map_append, List.map_map]
    congr 1
    refine List.map_congr_left fun k hk => ?_
    have hk8 := List.mem_range.mp hk
    rw [Function.comp_apply, show (8 * n + k) / 8 = n by omega, show (8 * n + k) % 8 = k by omega]

/-- Under the default mask table pixel `k` of a byte is bit `k` (20_memory.md R53, log 6). -/
theorem pixelOf_default {c : Config} (h : c.setLut = defaultSetLut) {k : Nat} (hk : k < 8) (b : Byte) :
    pixelOf c k b = b.getLsbD k := by
  have hmask : setMask c k = BitVec.twoPow 8 k := by
    rw [setMask, h]
    interval_cases k <;> rfl
  rw [pixelOf, hmask, BitVec.and_twoPow]
  cases b.getLsbD k
  · rfl
  · interval_cases k <;> rfl

/-- The framebuffer bytes of row `py`, as they are sent (42_framer.md R155, step 4b). -/
def rowBytes (s : State) (py : Nat) : List (BitOrder × Byte) :=
  (List.range (bpr s.cfg)).map fun j => (BitOrder.lsb, Memory.lookup s.fb (py * bpr s.cfg + j))

theorem rowFrame_eq (s : State) (py : Nat) :
    rowFrame s py = (.lsb, BitVec.ofNat 8 (py + 1)) :: rowBytes s py ++ [(.lsb, 0x00)] := rfl

theorem rowBytes_length (s : State) (py : Nat) : (rowBytes s py).length = bpr s.cfg := by simp [rowBytes]

/-- The bytes of a row show its pixels in column order (20_memory.md R55). -/
theorem rowBytes_bits {s : State} (hc : s.cfg.Wf) (hlut : s.cfg.setLut = defaultSetLut) (py : Nat) :
    (rowBytes s py).flatMap (fun p => byteBits p.1 p.2) =
      (List.range s.cfg.w).map fun px => pixelOf s.cfg (px % 8) (Memory.lookup s.fb (pixelIndex s.cfg px py)) := by
  rw [rowBytes, List.flatMap_map, flatMap_byteBits_lsb (fun j => Memory.lookup s.fb (py * bpr s.cfg + j)), w_eq hc]
  exact List.map_congr_left fun px _ => (pixelOf_default hlut (by omega) _).symm

/-- Settles O43: the frame is cut at the row, and the row at its address. -/
theorem rowPixelsLeaveInColumnOrder : Obligations.RowPixelsLeaveInColumnOrder := by
  unfold Obligations.RowPixelsLeaveInColumnOrder
  intro s py hc hi hlut hpy
  refine ⟨_, transaction s.cfg.csActive (refreshFrame s), exec_refreshDisplay_ok hc hi, by rw [emitAll_eq]; rfl, ?_⟩
  rw [wireBits_transaction]
  obtain ⟨pre, post, hframe, hpre⟩ := refreshFrame_eq_append s hpy
  have hcut : refreshFrame s = pre ++ [(.lsb, BitVec.ofNat 8 (py + 1))] ++ rowBytes s py ++ (.lsb, 0x00) :: post := by
    simp [hframe, rowFrame_eq]
  rw [hcut]
  constructor
  · rw [← hpre, List.append_assoc (pre ++ _)]
    exact byteBits_flatMap_segment pre [(.lsb, BitVec.ofNat 8 (py + 1))] _
  · have hbytes := byteBits_flatMap_segment (pre ++ [(.lsb, BitVec.ofNat 8 (py + 1))]) (rowBytes s py)
      ((.lsb, 0x00) :: post)
    rwa [List.length_append, hpre, rowBytes_length, ← w_eq hc, rowBytes_bits hc hlut] at hbytes

end Sys2Proof.Machine
end

section
/-! The encoding (30_encoding.md R71 to R76): a word is its fields side by side, each line of the decoder tests OP and the
reserved bits of one format, and each command has one word. What one refresh shows on the wire (R79) follows. -/

namespace Sys2Proof

/-! ### A word as its fields -/

/-- Concatenations of the same cut are equal field by field. -/
theorem append_eq_append_iff {n m : Nat} {a a' : BitVec n} {b b' : BitVec m} : a ++ b = a' ++ b' ↔ a = a' ∧ b = b' := by
  constructor
  · intro h
    have hhigh := congrArg (BitVec.extractLsb' m n) h
    have hlow := congrArg (BitVec.extractLsb' 0 m) h
    rw [BitVec.extractLsb'_append_eq_left, BitVec.extractLsb'_append_eq_left] at hhigh
    rw [BitVec.extractLsb'_append_eq_right, BitVec.extractLsb'_append_eq_right] at hlow
    exact ⟨hhigh, hlow⟩
  · rintro ⟨rfl, rfl⟩
    rfl

/-- OP and the bits of a format's reserved field, above its operand bits. -/
theorem extractLsb'_append_append {m k : Nat} (c : BitVec (4 + m + k)) :
    c.extractLsb' (m + k) 4 ++ c.extractLsb' k m ++ c.extractLsb' 0 k = c := by
  rw [BitVec.extractLsb'_append_extractLsb'_eq_extractLsb' (Nat.add_comm m k), BitVec.extractLsb'_append_extractLsb']

/-- A line of R75 keeps OP and `m` reserved bits of a word, and asks for a given OP and zeros. -/
theorem and_mask_eq_iff {m k : Nat} (c : BitVec (4 + m + k)) (op : BitVec 4) :
    c &&& (BitVec.allOnes 4 ++ BitVec.allOnes m ++ 0#k) = op ++ 0#m ++ 0#k ↔
      c.extractLsb' (m + k) 4 = op ∧ c.extractLsb' k m = 0#m := by
  conv_lhs => rw [← extractLsb'_append_append c]
  simp only [BitVec.and_append, BitVec.and_allOnes, BitVec.and_zero, append_eq_append_iff, and_true]

/-- The fields of a word as SET_PIXEL has them (R71). -/
theorem setPixel_fields (c : Word) :
    opField c ++ c.extractLsb' 27 1 ++ BitVec.ofBool (vField c) ++ xField c ++ yField c = c := by
  have hv : BitVec.ofBool (vField c) = c.extractLsb' 26 1 := by
    ext j hj
    obtain rfl : j = 0 := by omega
    simp [vField]
  simp only [hv, opField, xField, yField, BitVec.extractLsb'_append_extractLsb'_eq_extractLsb']
  exact BitVec.extractLsb'_eq_self

/-- The fields of a word as GET_PIXEL has them (R71). -/
theorem getPixel_fields (c : Word) : opField c ++ c.extractLsb' 26 2 ++ xField c ++ yField c = c := by
  simp only [opField, xField, yField, BitVec.extractLsb'_append_extractLsb'_eq_extractLsb']
  exact BitVec.extractLsb'_eq_self

/-- The fields of a word as SET_ROTATION has them (R71). -/
theorem setRotation_fields (c : Word) : opField c ++ c.extractLsb' 2 26 ++ rField c = c :=
  extractLsb'_append_append (m := 26) (k := 2) c

/-- The fields of a word as the bus commands have them (R71). -/
theorem bus_fields (c : Word) : opField c ++ c.extractLsb' 0 28 = c :=
  BitVec.extractLsb'_append_extractLsb' (w := 4) (len := 28)

/-- The sixteen values of OP: those of R76, and the five of the table. -/
theorem opField_cases (c : Word) : (opField c = 0#4 ∨ 6 ≤ (opField c).toNat) ∨
    opField c = 1#4 ∨ opField c = 2#4 ∨ opField c = 3#4 ∨ opField c = 4#4 ∨ opField c = 5#4 := by
  bv_omega

/-- A reserved bit that is set, as a reserved field that is not zero (R71). -/
theorem getLsbD_eq_true_iff (c : Word) (k : Nat) : c.getLsbD k = true ↔ c.extractLsb' k 1 ≠ 0#1 := by
  rw [BitVec.getLsbD_eq_extractLsb']
  generalize c.extractLsb' k 1 = b
  revert b
  decide

/-! ### The operands -/

/-- What a 13-bit field reads as is in range (R72). -/
theorem coordFits_sext13 (f : BitVec 13) : CoordFits (sext13 f) :=
  ⟨BitVec.le_toInt f, Int.le_of_lt_add_one BitVec.toInt_lt⟩

/-- A coordinate in range is read back from its field (R72). -/
theorem sext13_ofInt {z : Int} (h : CoordFits z) : sext13 (BitVec.ofInt 13 z) = z :=
  BitVec.toInt_ofInt_eq_self (by decide) h.1 (Int.lt_add_one_of_le h.2)

theorem ofInt_sext13 (f : BitVec 13) : BitVec.ofInt 13 (sext13 f) = f := BitVec.ofInt_toInt

theorem wf_setPixel_iff {x y : Int} {v : Bit} : (Instr.setPixel x y v).wf = true ↔ CoordFits x ∧ CoordFits y := by
  simp only [Instr.wf, Bool.and_eq_true, decide_eq_true_eq]

theorem wf_getPixel_iff {x y : Int} : (Instr.getPixel x y).wf = true ↔ CoordFits x ∧ CoordFits y := by
  simp only [Instr.wf, Bool.and_eq_true, decide_eq_true_eq]

theorem rotationOfBits_bitsOfRotation (r : Rotation) : rotationOfBits (bitsOfRotation r) = r := by cases r <;> rfl

theorem bitsOfRotation_rotationOfBits : ∀ b : BitVec 2, bitsOfRotation (rotationOfBits b) = b := by decide

/-! ### The encoder and the decoder by fields -/

/-- R71: the word of a SET_PIXEL, by its fields. -/
theorem encode_setPixel_eq_iff {x y : Int} {v : Bit} {c : Word} : encode (.setPixel x y v) = c ↔
    opField c = 1#4 ∧ c.extractLsb' 27 1 = 0#1 ∧ vField c = v ∧
      xField c = BitVec.ofInt 13 x ∧ yField c = BitVec.ofInt 13 y := by
  have hv : BitVec.ofBool (vField c) = BitVec.ofBool v ↔ vField c = v := by cases vField c <;> cases v <;> decide
  rw [eq_comm, ← hv]
  conv_lhs => rw [← setPixel_fields c]
  exact append_eq_append_iff.trans (by simp only [append_eq_append_iff, and_assoc])

/-- R71: the word of a GET_PIXEL, by its fields. -/
theorem encode_getPixel_eq_iff {x y : Int} {c : Word} : encode (.getPixel x y) = c ↔
    opField c = 2#4 ∧ c.extractLsb' 26 2 = 0#2 ∧ xField c = BitVec.ofInt 13 x ∧ yField c = BitVec.ofInt 13 y := by
  rw [eq_comm]
  conv_lhs => rw [← getPixel_fields c]
  exact append_eq_append_iff.trans (by simp only [append_eq_append_iff, and_assoc])

/-- R71: the word of a SET_ROTATION, by its fields. -/
theorem encode_setRotation_eq_iff {r : Rotation} {c : Word} : encode (.setRotation r) = c ↔
    opField c = 3#4 ∧ c.extractLsb' 2 26 = 0#26 ∧ rField c = bitsOfRotation r := by
  rw [eq_comm]
  conv_lhs => rw [← setRotation_fields c]
  exact append_eq_append_iff.trans (by simp only [append_eq_append_iff, and_assoc])

/-- R71: the word of CLEAR_DISPLAY, by its fields. -/
theorem encode_clearDisplay_eq_iff {c : Word} :
    encode .clearDisplay = c ↔ opField c = 4#4 ∧ c.extractLsb' 0 28 = 0#28 := by
  rw [eq_comm]
  conv_lhs => rw [← bus_fields c]
  exact append_eq_append_iff

/-- R71: the word of REFRESH_DISPLAY, by its fields. -/
theorem encode_refreshDisplay_eq_iff {c : Word} :
    encode .refreshDisplay = c ↔ opField c = 5#4 ∧ c.extractLsb' 0 28 = 0#28 := by
  rw [eq_comm]
  conv_lhs => rw [← bus_fields c]
  exact append_eq_append_iff

/-- R75, each line's test as the OP and the reserved field of the format of R71. -/
theorem decode_eq (c : Word) : decode c =
    if opField c = 1#4 ∧ c.extractLsb' 27 1 = 0#1 then
      .ok (.setPixel (sext13 (xField c)) (sext13 (yField c)) (vField c))
    else if opField c = 2#4 ∧ c.extractLsb' 26 2 = 0#2 then .ok (.getPixel (sext13 (xField c)) (sext13 (yField c)))
    else if opField c = 3#4 ∧ c.extractLsb' 2 26 = 0#26 then .ok (.setRotation (rotationOfBits (rField c)))
    else if opField c = 4#4 ∧ c.extractLsb' 0 28 = 0#28 then .ok .clearDisplay
    else if opField c = 5#4 ∧ c.extractLsb' 0 28 = 0#28 then .ok .refreshDisplay
    else .error (illegalReason c) := by
  have h1 : c &&& 0xF8000000#32 = 0x10000000#32 ↔ opField c = 1#4 ∧ c.extractLsb' 27 1 = 0#1 :=
    and_mask_eq_iff (m := 1) (k := 27) c 1#4
  have h2 : c &&& 0xFC000000#32 = 0x20000000#32 ↔ opField c = 2#4 ∧ c.extractLsb' 26 2 = 0#2 :=
    and_mask_eq_iff (m := 2) (k := 26) c 2#4
  have h3 : c &&& 0xFFFFFFFC#32 = 0x30000000#32 ↔ opField c = 3#4 ∧ c.extractLsb' 2 26 = 0#26 :=
    and_mask_eq_iff (m := 26) (k := 2) c 3#4
  have h4 : c = 0x40000000#32 ↔ opField c = 4#4 ∧ c.extractLsb' 0 28 = 0#28 :=
    eq_comm.trans encode_clearDisplay_eq_iff
  have h5 : c = 0x50000000#32 ↔ opField c = 5#4 ∧ c.extractLsb' 0 28 = 0#28 :=
    eq_comm.trans encode_refreshDisplay_eq_iff
  simp only [decode, h1, h2, h3, h4, h5]

/-! ### The round trips and the reserved words -/

/-- Settles O1: the encoded word has the fields of its format, so R75's line for it answers, and the operands read back. -/
theorem encodedCommandDecodesToItself : Obligations.EncodedCommandDecodesToItself := by
  unfold Obligations.EncodedCommandDecodesToItself
  intro i hwf
  rw [decode_eq]
  cases i with
  | setPixel x y v =>
    obtain ⟨hop, hres, hv, hx, hy⟩ := encode_setPixel_eq_iff.mp (Eq.refl (encode (.setPixel x y v)))
    obtain ⟨hxfits, hyfits⟩ := wf_setPixel_iff.mp hwf
    rw [if_pos ⟨hop, hres⟩, hv, hx, hy, sext13_ofInt hxfits, sext13_ofInt hyfits]
  | getPixel x y =>
    obtain ⟨hop, hres, hx, hy⟩ := encode_getPixel_eq_iff.mp (Eq.refl (encode (.getPixel x y)))
    obtain ⟨hxfits, hyfits⟩ := wf_getPixel_iff.mp hwf
    simp [hop, hres, hx, hy, sext13_ofInt hxfits, sext13_ofInt hyfits]
  | setRotation r =>
    obtain ⟨hop, hres, hr⟩ := encode_setRotation_eq_iff.mp (Eq.refl (encode (.setRotation r)))
    simp [hop, hres, hr, rotationOfBits_bitsOfRotation]
  | clearDisplay => simp [encode_clearDisplay_eq_iff.mp (Eq.refl (encode .clearDisplay))]
  | refreshDisplay => simp [encode_refreshDisplay_eq_iff.mp (Eq.refl (encode .refreshDisplay))]

/-- Settles O2: each line of R75 fixes OP and the reserved field, and the command takes the other fields. -/
theorem decodedWordIsItsCommandsEncoding : Obligations.DecodedWordIsItsCommandsEncoding := by
  unfold Obligations.DecodedWordIsItsCommandsEncoding
  intro c i h
  rw [decode_eq] at h
  split_ifs at h with h1 h2 h3 h4 h5 <;> cases h
  · exact ⟨wf_setPixel_iff.mpr ⟨coordFits_sext13 _, coordFits_sext13 _⟩,
      encode_setPixel_eq_iff.mpr ⟨h1.1, h1.2, rfl, (ofInt_sext13 _).symm, (ofInt_sext13 _).symm⟩⟩
  · exact ⟨wf_getPixel_iff.mpr ⟨coordFits_sext13 _, coordFits_sext13 _⟩,
      encode_getPixel_eq_iff.mpr ⟨h2.1, h2.2, (ofInt_sext13 _).symm, (ofInt_sext13 _).symm⟩⟩
  · exact ⟨rfl, encode_setRotation_eq_iff.mpr ⟨h3.1, h3.2, (bitsOfRotation_rotationOfBits _).symm⟩⟩
  · exact ⟨rfl, encode_clearDisplay_eq_iff.mpr h4⟩
  · exact ⟨rfl, encode_refreshDisplay_eq_iff.mpr h5⟩

/-- Settles O3: an accepted word has a defined OP and its reserved field zero, and a word with a defined OP that no line
accepts has the reserved field of that OP's format set. -/
theorem illegalWordsAreReservedEncodings : Obligations.IllegalWordsAreReservedEncodings := by
  unfold Obligations.IllegalWordsAreReservedEncodings
  intro c
  rw [getLsbD_eq_true_iff, decode_eq]
  split_ifs with h1 h2 h3 h4 h5
  · simp [h1]
  · simp [h2]
  · simp [h3]
  · simp [h4]
  · simp [h5]
  · refine iff_of_true ⟨_, rfl⟩ ?_
    obtain hop | hop | hop | hop | hop | hop := opField_cases c
    · exact .inl hop
    · exact .inr (.inl ⟨hop, fun hres => h1 ⟨hop, hres⟩⟩)
    · exact .inr (.inr (.inl ⟨hop, fun hres => h2 ⟨hop, hres⟩⟩))
    · exact .inr (.inr (.inr (.inl ⟨hop, fun hres => h3 ⟨hop, hres⟩⟩)))
    · exact .inr (.inr (.inr (.inr ⟨.inl hop, fun hres => h4 ⟨hop, hres⟩⟩)))
    · exact .inr (.inr (.inr (.inr ⟨.inr hop, fun hres => h5 ⟨hop, hres⟩⟩)))

end Sys2Proof

namespace Sys2Proof.Machine

/-! ### The frame on the wire, and the written words and lines -/

/-- Settles O41: the chip-select events carry no bit, and a frame is read off its bits. -/
theorem refreshFrameIsReadOffTheWire : Obligations.RefreshFrameIsReadOffTheWire := by
  unfold Obligations.RefreshFrameIsReadOffTheWire
  intro s hc hi
  refine ⟨_, transaction s.cfg.csActive (refreshFrame s), exec_refreshDisplay_ok hc hi, by rw [emitAll_eq]; rfl, ?_⟩
  rw [wireBits_transaction]
  exact ⟨byteBits_flatMap_length _, wireBytes_frame _⟩

/-- Settles O4: the decoder is evaluated on the nine words. -/
theorem writtenWordsDecode : Obligations.WrittenWordsDecode := by
  unfold Obligations.WrittenWordsDecode
  decide

/-- Settles O5: the assembler is evaluated on the seven lines. -/
theorem assemblyLinesGiveTheirWords : Obligations.AssemblyLinesGiveTheirWords := by
  unfold Obligations.AssemblyLinesGiveTheirWords
  decide

end Sys2Proof.Machine
end

section
/-! The framebuffer's commands (40_framebuffer.md R100 to R111): the rotation transform and its inverse, the mask tables,
and what the pixel commands and CLEAR_BITS make of a pixel. -/

namespace Sys2Proof.Machine

/-! ### The rotation transform -/

/-- Settles O20: each rotation's extents are its line of `extents`. -/
theorem oddRotationsSwapTheExtents : Obligations.OddRotationsSwapTheExtents := by
  unfold Obligations.OddRotationsSwapTheExtents
  intro r c
  constructor
  · rintro (rfl | rfl) <;> rfl
  · rintro (rfl | rfl) <;> rfl

/-- Settles O21: the table's rows are the lines of `extents` and `transform`. -/
theorem transformIsTheRotationTable : Obligations.TransformIsTheRotationTable := by
  unfold Obligations.TransformIsTheRotationTable
  exact fun _ _ _ => ⟨rfl, rfl, rfl, rfl, rfl, rfl, rfl, rfl⟩

/-- The inverse of the rotation transform (40_framebuffer.md R103). -/
def inverseTransform (r : Rotation) (c : Config) (px py : Int) : Int × Int :=
  match r with
  | .r0 => (px, py)
  | .r1 => (py, c.w - 1 - px)
  | .r2 => (c.w - 1 - px, c.h - 1 - py)
  | .r3 => (c.h - 1 - py, px)

theorem transform_eq_iff {r : Rotation} {c : Config} {x y px py : Int} :
    transform r c x y = (px, py) ↔ (x, y) = inverseTransform r c px py := by
  cases r <;> simp only [transform, inverseTransform, Prod.mk.injEq] <;> omega

/-- Only in-range coordinates are mapped into the frame (40_framebuffer.md R103). -/
theorem inRange_of_transform_mem {r : Rotation} {c : Config} {x y : Int}
    (hx : 0 ≤ (transform r c x y).1 ∧ (transform r c x y).1 < c.w)
    (hy : 0 ≤ (transform r c x y).2 ∧ (transform r c x y).2 < c.h) : InRange r c x y := by
  cases r <;> simp only [InRange, extents, transform] at hx hy ⊢ <;> omega

/-- Settles O22: the transform maps in-range coordinates, and no others, into the frame, and `inverseTransform` undoes it. -/
theorem transformIsABijectionOntoTheFrame : Obligations.TransformIsABijectionOntoTheFrame := by
  unfold Obligations.TransformIsABijectionOntoTheFrame
  refine fun r c => ⟨fun x y h => transform_mem h, fun px py hpx hpy x y => ?_⟩
  change _ ↔ (x, y) = inverseTransform r c px py
  rw [← transform_eq_iff, and_iff_right_iff_imp]
  intro ht
  exact inRange_of_transform_mem (by rw [ht]; exact hpx) (by rw [ht]; exact hpy)

/-- Two in-range coordinates that name one physical pixel, under any rotations, are located alike. -/
theorem locate_eq_of_transform_eq {r r' : Rotation} {c : Config} {x y x' y' : Int} (h : InRange r c x y)
    (h' : InRange r' c x' y') (ht : transform r' c x' y' = transform r c x y) : locate r' c x' y' = locate r c x y := by
  rw [locate, if_pos h', ht, locate, if_pos h]

/-! ### The mask tables -/

/-- The entries of a legal mask table are one-hot bytes (00_scope.md R7). -/
theorem setMask_mem_oneHotBytes {c : Config} (h : c.Wf) {k : Nat} (hk : k < 8) : setMask c k ∈ oneHotBytes := by
  obtain ⟨-, -, -, hlen, -, honehot⟩ := h
  have hk' : k < c.setLut.length := hlen ▸ hk
  rw [setMask, List.getD_eq_getElem _ _ hk']
  exact honehot _ (List.getElem_mem _)

theorem oneHotBytes_ne_zero : ∀ a ∈ oneHotBytes, a ≠ 0 := by decide

theorem setMask_ne_zero {c : Config} (h : c.Wf) {k : Nat} (hk : k < 8) : setMask c k ≠ 0 :=
  oneHotBytes_ne_zero _ (setMask_mem_oneHotBytes h hk)

/-- The default table's entry `k` is `1 << k` (40_framebuffer.md R104; presumed, log 6). -/
theorem defaultSetLut_getD : ∀ k < 8, defaultSetLut.getD k 0 = 1#8 <<< k := by decide

/-- Settles O24: the table's entries are distinct one-hot bytes, and the default table is evaluated. -/
theorem maskTablesAreOneHotComplements : Obligations.MaskTablesAreOneHotComplements := by
  unfold Obligations.MaskTablesAreOneHotComplements
  exact ⟨fun c h j k hj hk => ⟨setMask_mem_oneHotBytes h hk, rfl, setMask_and_setMask h hj hk⟩,
    fun _ _ => defaultSetLut_getD⟩

/-! ### A pixel set, cleared and read -/

/-- A pixel rewritten in its byte has its new value (40_framebuffer.md R109). -/
theorem pixelOf_withPixel_self {c : Config} (h : c.Wf) {k : Nat} (hk : k < 8) (v : Bit) (b : Byte) :
    pixelOf c k (withPixel c k v b) = v := by
  cases v with
  | true =>
    have hset : (b ||| setMask c k) &&& setMask c k = setMask c k := by
      ext i
      simp +contextual
    exact decide_eq_true (hset.trans_ne (setMask_ne_zero h hk))
  | false =>
    have hclear : b &&& clrMask c k &&& setMask c k = 0 := by
      ext i
      simp [clrMask]
    exact decide_eq_false (not_not_intro hclear)

/-- Every pixel of a byte of ones is 1 (40_framebuffer.md R111). -/
theorem pixelOf_allOnes {c : Config} (h : c.Wf) {k : Nat} (hk : k < 8) : pixelOf c k 0xFF = true :=
  decide_eq_true (BitVec.allOnes_and.trans_ne (setMask_ne_zero h hk))

/-- What a read gives after the byte at `i` is rewritten from itself (00_scope.md R10). -/
theorem read_store_update {size : Nat} {m : Memory} (hm : Memory.Wf size m) (i : Nat) (f : Byte → Byte) (a : Nat) :
    Memory.read size (Memory.store m i (f (Memory.lookup m i))) a =
      if a = i then (Memory.read size m a).map f else Memory.read size m a := by
  by_cases hai : a = i
  · subst hai
    rw [if_pos rfl, Memory.read, Memory.read, lookup_store_self hm.1]
    split <;> rfl
  · rw [if_neg hai, Memory.read, Memory.read, lookup_store_other hai]

/-! ### The pixel commands -/

/-- R202: a block that is not initialised answers every command with the error. -/
theorem exec_of_not_initOk (i : Instr) {s : State} (hi : s.initOk = false) :
    exec i s = .next (raiseError .notInitialised s) := by
  cases i <;> simp only [exec, execSetPixel, execGetPixel, execSetRotation, execClearDisplay, execRefreshDisplay,
    requireInit_of_not_ok hi]

/-- 40_framebuffer.md R109: GET_PIXEL at a pixel whose byte was rewritten with value `v` responds `v`. -/
theorem exec_getPixel_written {x y : Int} {v : Bit} {u : State} {m : Memory} {i k : Nat} (hc : u.cfg.Wf)
    (hi : u.initOk = true) (hm : Memory.Wf (fbBytes u.cfg) m) (hl : locate u.rot u.cfg x y = some (i, k))
    (hfb : u.fb = Memory.store m i (withPixel u.cfg k v (Memory.lookup m i))) :
    exec (.getPixel x y) u = .next (respond true v u) := by
  obtain ⟨hlt, hk⟩ := locate_lt hc hl
  rw [exec_getPixel_located hi hl hlt, hfb, lookup_store_self hm.1, pixelOf_withPixel_self hc hk]

/-- 40_framebuffer.md R111: GET_PIXEL at a pixel in a byte of ones responds 1. -/
theorem exec_getPixel_ones {x y : Int} {u : State} {i k : Nat} (hc : u.cfg.Wf) (hi : u.initOk = true)
    (hl : locate u.rot u.cfg x y = some (i, k)) (hones : Memory.lookup u.fb i = 0xFF) :
    exec (.getPixel x y) u = .next (respond true true u) := by
  obtain ⟨hlt, hk⟩ := locate_lt hc hl
  rw [exec_getPixel_located hi hl hlt, hones, pixelOf_allOnes hc hk]

/-- Settles O25: the uninitialised, the clipped and the located SET_PIXEL; the last rewrites one byte from itself. -/
theorem setPixelWritesOnePixel : Obligations.SetPixelWritesOnePixel := by
  unfold Obligations.SetPixelWritesOnePixel
  refine fun x y v s hc hm => ⟨exec_of_not_initOk _, fun hi hout => exec_setPixel_clipped hi (locate_of_not_inRange hout),
    fun hi hin => ?_⟩
  obtain ⟨px, py, hp, hpx, hpy, hl⟩ := locate_of_inRange hin
  have hlt := pixelIndex_lt hc hpx hpy
  exact ⟨_, px, py, hp, exec_setPixel_located hi hl hlt, rfl, hlt, read_store_update hm _ (withPixel s.cfg (px % 8) v)⟩

/-- Settles O26: the uninitialised, the clipped and the located GET_PIXEL. -/
theorem getPixelRespondsThePixel : Obligations.GetPixelRespondsThePixel := by
  unfold Obligations.GetPixelRespondsThePixel
  refine fun x y s hc => ⟨exec_of_not_initOk _, fun hi hout => exec_getPixel_clipped hi (locate_of_not_inRange hout),
    fun hi hin => ?_⟩
  obtain ⟨px, py, hp, hpx, hpy, hl⟩ := locate_of_inRange hin
  have hlt := pixelIndex_lt hc hpx hpy
  exact ⟨px, py, _, hp, if_pos hlt, exec_getPixel_located hi hl hlt⟩

/-- Settles O27: the two branches of the prologue. -/
theorem setRotationWritesOnlyTheRotation : Obligations.SetRotationWritesOnlyTheRotation := by
  unfold Obligations.SetRotationWritesOnlyTheRotation
  exact fun r s => ⟨exec_of_not_initOk _, exec_setRotation_ok r⟩

/-- Settles O28: the coordinate is located alike before and after the write. -/
theorem writtenPixelReadsBack : Obligations.WrittenPixelReadsBack := by
  unfold Obligations.WrittenPixelReadsBack
  intro x y v s hc hm hi hin
  obtain ⟨px, py, -, hpx, hpy, hl⟩ := locate_of_inRange hin
  have hset := exec_setPixel_located (v := v) hi hl (pixelIndex_lt hc hpx hpy)
  exact ⟨_, _, hset, exec_getPixel_written hc hi hm hl rfl, List.append_assoc _ _ _⟩

/-- Settles O29: a coordinate out of range is not located. -/
theorem clippedPixelCommandsOnlyRespondOff : Obligations.ClippedPixelCommandsOnlyRespondOff := by
  unfold Obligations.ClippedPixelCommandsOnlyRespondOff
  intro x y v s hi hout
  have hl := locate_of_not_inRange hout
  exact ⟨exec_setPixel_clipped hi hl, exec_getPixel_clipped hi hl⟩

/-- Settles O31: the second coordinate under the second rotation is located where the first one was. -/
theorem rotationsReachTheSamePhysicalPixel : Obligations.RotationsReachTheSamePhysicalPixel := by
  unfold Obligations.RotationsReachTheSamePhysicalPixel
  intro x y x' y' r v s hc hm hi hin hin' ht
  obtain ⟨px, py, -, hpx, hpy, hl⟩ := locate_of_inRange hin
  have hset := exec_setPixel_located (v := v) hi hl (pixelIndex_lt hc hpx hpy)
  have hl' := (locate_eq_of_transform_eq hin hin' ht).trans hl
  exact ⟨_, _, _, hset, exec_setRotation_ok r hi, exec_getPixel_written hc hi hm hl' rfl, by simp⟩

/-- Settles O38: every byte is `0xFF`, and a pixel of the frame is a bit of one of them. -/
theorem clearedPixelsReadOne : Obligations.ClearedPixelsReadOne := by
  unfold Obligations.ClearedPixelsReadOne
  intro r x y s hc hm hi hin
  obtain ⟨m, hclear, hfilled⟩ := clearBits_ok s
  obtain ⟨-, hones⟩ := hfilled hm
  obtain ⟨px, py, -, hpx, hpy, hl⟩ := locate_of_inRange hin
  exact ⟨_, _, hclear, exec_getPixel_ones hc hi hl (hones _ (pixelIndex_lt hc hpx hpy)), rfl⟩

end Sys2Proof.Machine
end

section
/-! The serializer and the lines (41_serializer.md R130 to R138): one byte's events, the shift register, and the discipline of
the lines over a command. -/

namespace Sys2Proof.Machine

/-! ### One byte -/

theorem txEvents_length (o : BitOrder) (b : Byte) : (txEvents o b).length = 25 := by cases o <;> rfl

/-- Settles O32: a byte is its events, and they leave every line but CLK and DATA alone. -/
theorem transmitStepEmits25Events : Obligations.TransmitStepEmits25Events := by
  unfold Obligations.TransmitStepEmits25Events
  intro o b s
  refine ⟨txEvents_length o b, ?_⟩
  rw [txByte_eq_emitAll, emitAll_eq, levelAfter_txEvents_cs, levelAfter_txEvents_clk, levelAfter_txEvents_data]
  cases o <;> rfl

/-! ### The shift register -/

/-- The shift register of a byte after `k` shifts (41_serializer.md R138). -/
def shiftedBy (o : BitOrder) (b : Byte) (k : Nat) : Byte :=
  match o with
  | .msb => b <<< k
  | .lsb => b >>> k

theorem bitNumbers_length (o : BitOrder) : (bitNumbers o).length = 8 := by cases o <;> rfl

/-- The register a byte was loaded into, after `k` shifts: it presents the bit that is sent in place `k`. -/
theorem shiftOut_shiftedBy {s : State} {b : Byte} {k : Nat} (hsr : s.sr = shiftedBy s.bitOrder b k) (hk : k < 8) :
    shiftOut s = b.getLsbD ((bitNumbers s.bitOrder)[k]'(bitNumbers_length _ ▸ hk)) := by
  unfold shiftOut
  simp only [hsr]
  cases s.bitOrder with
  | msb => interval_cases k <;> simp [shiftedBy, bitNumbers]
  | lsb => interval_cases k <;> simp [shiftedBy, bitNumbers]

theorem shifted_shiftedBy {s : State} {b : Byte} {k : Nat} (hsr : s.sr = shiftedBy s.bitOrder b k) :
    shifted s = shiftedBy s.bitOrder b (k + 1) := by
  unfold shifted
  rw [hsr]
  cases s.bitOrder with
  | msb => exact (BitVec.shiftLeft_add b k 1).symm
  | lsb => exact (BitVec.shiftRight_add b k 1).symm

/-- The first bit groups of a byte, as the register sends them (41_serializer.md R138). -/
theorem iterate_shiftBit_loadShift (o : BitOrder) (b : Byte) (s : State) {k : Nat} (hk : k ≤ 8) :
    shiftBit^[k] (loadShift o b s) =
      { ((bitNumbers o).take k).foldl (fun t n => sendBit (b.getLsbD n) t) s with
        sr := shiftedBy o b k, bitOrder := o, bitCount := k } := by
  induction k with
  | zero => cases o <;> simp [loadShift, shiftedBy]
  | succ k ih =>
    have hlen : k < (bitNumbers o).length := bitNumbers_length o ▸ hk
    rw [Function.iterate_succ_apply', ih (by omega), List.take_succ_eq_append_getElem hlen, List.foldl_append, shiftBit,
      shiftOut_shiftedBy (b := b) rfl hk, shifted_shiftedBy rfl]
    rfl

/-- Settles O33: after eight shifts the register has sent all the groups of the byte. -/
theorem shiftRegisterSendsTheSameEvents : Obligations.ShiftRegisterSendsTheSameEvents := by
  unfold Obligations.ShiftRegisterSendsTheSameEvents
  intro o b s
  refine ⟨shiftedBy o b 8, ?_⟩
  rw [iterate_shiftBit_loadShift o b s le_rfl, List.take_of_length_le (bitNumbers_length o).le]
  rfl

/-! ### The line discipline of a command -/

/-- A whole transaction keeps the discipline, from any level of chip select (42_framer.md R151). -/
theorem disciplined_transaction (a cs : Bit) (f : List (BitOrder × Byte)) :
    disciplined a cs false (transaction a f) = true := by
  rw [transaction_eq, List.cons_append, disciplined, disciplined_append, disciplined_frameEvents,
    levelAfter_frameEvents_clk]
  rfl

/-- The lines move by the events of one whole transaction, or not at all (42_framer.md R151). -/
def MovesByTransaction (s t : State) : Prop :=
  ∃ es, t.trace = s.trace ++ es ∧ t.cs = levelAfter .cs s.cs es ∧ t.clk = levelAfter .clk s.clk es ∧
    (es = [] ∨ ∃ f, es = transaction s.cfg.csActive f)

theorem movesByTransaction_of_eq {s t : State} (htrace : t.trace = s.trace) (hcs : t.cs = s.cs) (hclk : t.clk = s.clk) :
    MovesByTransaction s t :=
  ⟨[], by rw [htrace, List.append_nil], hcs, hclk, .inl rfl⟩

/-- Only the two bus commands move the lines (42_framer.md R154, R155). -/
theorem exec_movesByTransaction (i : Instr) {s : State} (hc : s.cfg.Wf) :
    ∃ t, exec i s = .next t ∧ MovesByTransaction s t := by
  cases hi : s.initOk with
  | false => exact ⟨_, exec_of_not_initOk i hi, movesByTransaction_of_eq rfl rfl rfl⟩
  | true =>
    cases i with
    | setPixel x y v =>
      cases hl : locate s.rot s.cfg x y with
      | none => exact ⟨_, exec_setPixel_clipped hi hl, movesByTransaction_of_eq rfl rfl rfl⟩
      | some p => exact ⟨_, exec_setPixel_located hi hl (locate_lt hc hl).1, movesByTransaction_of_eq rfl rfl rfl⟩
    | getPixel x y =>
      cases hl : locate s.rot s.cfg x y with
      | none => exact ⟨_, exec_getPixel_clipped hi hl, movesByTransaction_of_eq rfl rfl rfl⟩
      | some p => exact ⟨_, exec_getPixel_located hi hl (locate_lt hc hl).1, movesByTransaction_of_eq rfl rfl rfl⟩
    | setRotation r => exact ⟨_, exec_setRotation_ok r hi, movesByTransaction_of_eq rfl rfl rfl⟩
    | clearDisplay =>
      obtain ⟨m, hm, -⟩ := exec_clearDisplay_ok hi
      rw [emitAll_eq] at hm
      exact ⟨_, hm, _, rfl, rfl, rfl, .inr ⟨_, rfl⟩⟩
    | refreshDisplay =>
      have hr := exec_refreshDisplay_ok hc hi
      rw [emitAll_eq] at hr
      exact ⟨_, hr, _, rfl, rfl, rfl, .inr ⟨_, rfl⟩⟩

/-- Settles O35: no event, or one transaction from a low clock. -/
theorem commandsKeepTheLineDiscipline : Obligations.CommandsKeepTheLineDiscipline := by
  unfold Obligations.CommandsKeepTheLineDiscipline
  intro i s hc hcs hclk
  obtain ⟨t, hexec, es, htrace, hcs', hclk', hes⟩ := exec_movesByTransaction i hc
  refine ⟨t, es, hexec, htrace, ?_⟩
  rw [hcs', hclk', hclk]
  obtain rfl | ⟨f, rfl⟩ := hes
  · exact ⟨rfl, hcs, rfl⟩
  · exact ⟨disciplined_transaction _ _ f, levelAfter_transaction_cs _ f _, levelAfter_transaction_clk _ f⟩

end Sys2Proof.Machine
end

section
/-! The bit-level machine against the atomic one (41_serializer.md R138, 42_framer.md R160): a phase takes one micro-step, or
nine for its byte; and the phases of a bus command, one after another, do what the command does. -/

namespace Sys2Proof.Machine

/-! ### The shift register changes nothing else -/

/-- `s` with other contents in the shift register and its order. -/
def withShift (r : Byte) (o : BitOrder) (s : State) : State := { s with sr := r, bitOrder := o }

theorem withShift_phase (r : Byte) (o : BitOrder) (s : State) : (withShift r o s).phase = s.phase := rfl

theorem phaseByte_withShift (r : Byte) (o : BitOrder) (s : State) : phaseByte (withShift r o s) = phaseByte s := rfl

theorem nextPhase_withShift (r : Byte) (o : BitOrder) (s : State) :
    nextPhase (withShift r o s) = withShift r o (nextPhase s) := by
  cases hp : s.phase <;> simp only [nextPhase, withShift, hp]

/-- The framebuffer with `0xFF` in every byte (40_framebuffer.md R108). -/
def filled (s : State) : Memory := (List.range (fbBytes s.cfg)).foldl (fun m i => Memory.store m i 0xFF) s.fb

theorem clearBits_eq (s : State) : clearBits s = .ok { s with fb := filled s } :=
  foldlM_fill _ s fun _ hi => List.mem_range.mp hi

theorem phaseAction_withShift (r : Byte) (o : BitOrder) (s : State) :
    phaseAction (withShift r o s) = (phaseAction s).map (withShift r o) := by
  cases hp : s.phase <;> simp only [phaseAction, clearBits_eq, hp, withShift_phase] <;> rfl

theorem txByte_withShift (r : Byte) (o o' : BitOrder) (b : Byte) (s : State) :
    txByte o' b (withShift r o s) = withShift r o (txByte o' b s) := by
  simp only [txByte_eq_emitAll, emitAll_eq, withShift]

theorem txByte_bitCount (o : BitOrder) (b : Byte) (s : State) : (txByte o b s).bitCount = s.bitCount := by
  rw [txByte_eq_emitAll, emitAll_eq]

theorem transmits_of_phaseByte {s : State} {p : BitOrder × Except Fault Byte} (h : phaseByte s = some p) :
    transmits s.phase = true := by
  by_contra hne
  rw [Bool.not_eq_true, ← phaseByte_eq_none, h] at hne
  cases hne

/-! ### The micro-steps of one phase -/

/-- The block runs a command, at a byte boundary, with no reset asserted. -/
structure AtByteBoundary (s : State) : Prop where
  cfg : s.cfg.Wf
  reset : s.resetIn = none
  count : s.bitCount = 0

/-- The block sends a byte, `n` of its bit groups sent. -/
structure Sending (n : Nat) (s : State) : Prop where
  cfg : s.cfg.Wf
  reset : s.resetIn = none
  phase : transmits s.phase = true
  count : s.bitCount = n

theorem sending_shiftBit {n : Nat} {s : State} (h : Sending n s) : Sending (n + 1) (shiftBit s) :=
  ⟨h.cfg, h.reset, h.phase, congrArg (· + 1) h.count⟩

theorem atByteBoundary_nextPhase {s : State} (h : AtByteBoundary s) : AtByteBoundary (nextPhase s) := by
  rw [nextPhase_eq]; exact ⟨h.cfg, h.reset, h.count⟩

theorem atByteBoundary_txByte {s : State} (h : AtByteBoundary s) (o : BitOrder) (b : Byte) :
    AtByteBoundary (txByte o b s) := by
  rw [txByte_eq_emitAll, emitAll_eq]; exact ⟨h.cfg, h.reset, h.count⟩

theorem atByteBoundary_phaseAction {s t : State} (h : AtByteBoundary s) (ht : phaseAction s = .ok t) :
    AtByteBoundary t := by
  obtain ⟨u, hu, heq, -⟩ := phaseAction_cases s
  cases ht.symm.trans hu
  rw [heq]
  exact ⟨h.cfg, h.reset, h.count⟩

theorem ne_idle_of_transmits {p : Phase} (h : transmits p = true) : p ≠ .idle := by
  rintro rfl; cases h

/-- While a byte is sent the finer machine goes on with it. -/
theorem fineStep_of_sending {n : Nat} {s : State} (h : Sending n s) (hn : 0 < n) :
    fineStep s = .next (if n < 8 then shiftBit s else nextPhase (closeByte s)) := by
  have hne : phaseByte s ≠ none := by rw [ne_eq, phaseByte_eq_none, h.phase]; decide
  obtain ⟨⟨o, e⟩, hb⟩ := Option.ne_none_iff_exists'.mp hne
  rw [fineStep, stepWith_running h.cfg h.reset (ne_idle_of_transmits h.phase), bitStep]
  simp only [hb, h.count, if_neg hn.ne']
  split <;> rfl

/-- The bit groups of a byte after its first one. -/
theorem iterate_fineStep_shiftBit (k : Nat) : ∀ {n : Nat} {s : State}, Sending n s → 0 < n → n + k ≤ 8 →
    iterate fineStep k s = .next (shiftBit^[k] s) ∧ Sending (n + k) (shiftBit^[k] s) := by
  induction k with
  | zero => exact fun h _ _ => ⟨rfl, h⟩
  | succ k ih =>
    intro n s h hn hk
    obtain ⟨hrun, hsending⟩ := ih (sending_shiftBit h) (Nat.succ_pos n) (by omega)
    rw [iterate, fineStep_of_sending h hn, if_pos (by omega)]
    exact ⟨hrun, (show n + 1 + k = n + (k + 1) by omega) ▸ hsending⟩

/-- Nine micro-steps send the byte of a phase and move on (41_serializer.md R138, log 13). -/
theorem iterate_fineStep_byte {s : State} (h : AtByteBoundary s) {o : BitOrder} {b : Byte}
    (hb : phaseByte s = some (o, .ok b)) :
    ∃ r, iterate fineStep 9 s = .next (withShift r o (nextPhase (txByte o b s))) := by
  have ht := transmits_of_phaseByte hb
  have hfirst : fineStep s = .next (shiftBit (loadShift o b s)) := by
    rw [fineStep, stepWith_running h.cfg h.reset (ne_idle_of_transmits ht), bitStep]
    simp only [hb, h.count, if_pos]
    rfl
  have hone : Sending 1 (shiftBit (loadShift o b s)) := sending_shiftBit ⟨h.cfg, h.reset, ht, rfl⟩
  obtain ⟨hgroups, height⟩ := iterate_fineStep_shiftBit 7 hone (by decide) (by decide)
  have hlast := fineStep_of_sending height (by decide)
  obtain ⟨r, hr⟩ := shiftRegisterSendsTheSameEvents o b s
  refine ⟨r, (iterate_add (iterate_add (iterate_one hfirst) hgroups) (iterate_one hlast)).trans ?_⟩
  rw [if_neg (by decide), ← Function.iterate_succ_apply, hr, ← nextPhase_withShift, withShift, txByte_bitCount, h.count]

/-- One micro-step completes a phase that transmits no byte. -/
theorem fineStep_of_action {s t : State} (h : AtByteBoundary s) (hp : s.phase ≠ .idle) (hb : phaseByte s = none)
    (ht : phaseAction s = .ok t) : fineStep s = .next (nextPhase t) := by
  rw [fineStep, stepWith_running h.cfg h.reset hp, bitStep]
  simp only [hb, ht]
  rfl

/-! ### A run of phases -/

/-- `n` phases of the framer's table lead from `s` to `t`: in `k` micro-steps, one for a phase that transmits no byte and nine
for a byte (42_framer.md R160, log 13). -/
inductive PhaseRun : Nat → Nat → State → State → Prop
  | refl (s : State) : PhaseRun 0 0 s s
  | action {n k : Nat} {s t u : State} : s.phase ≠ .idle → phaseByte s = none → phaseAction s = .ok t →
      PhaseRun n k (nextPhase t) u → PhaseRun (n + 1) (k + 1) s u
  | byte {n k : Nat} {s u : State} {o : BitOrder} {b : Byte} : phaseByte s = some (o, .ok b) →
      PhaseRun n k (nextPhase (txByte o b s)) u → PhaseRun (n + 1) (k + 9) s u

theorem PhaseRun.of_eq {n n' k k' : Nat} {s t : State} (h : PhaseRun n k s t) (hn : n' = n) (hk : k' = k) :
    PhaseRun n' k' s t := hn ▸ hk ▸ h

theorem PhaseRun.trans {n k m l : Nat} {s t u : State} (h : PhaseRun n k s t) (h' : PhaseRun m l t u) :
    PhaseRun (m + n) (l + k) s u := by
  induction h with
  | refl s => exact h'
  | action hp hb ha _ ih => exact .action hp hb ha (ih h')
  | byte hb _ ih => exact .byte hb (ih h')

/-- A run is one phase of the table a step (42_framer.md R160). -/
theorem PhaseRun.iterate_phaseStep {n k : Nat} {s t : State} (h : PhaseRun n k s t) :
    iterate phaseStep n s = .next t := by
  induction h with
  | refl s => rfl
  | action hp hb ha _ ih =>
    rw [iterate, phaseStep]
    simp only [hb, ha]
    exact ih
  | byte hb _ ih =>
    rw [iterate, phaseStep]
    simp only [hb]
    exact ih

/-- The finer machine goes through a run of phases, whatever was in the shift register. -/
theorem PhaseRun.iterate_fineStep {n k : Nat} {s t : State} (h : PhaseRun n k s t) (hs : AtByteBoundary s) :
    ∀ r o, ∃ r' o', iterate fineStep k (withShift r o s) = .next (withShift r' o' t) := by
  induction h with
  | refl s => exact fun r o => ⟨r, o, rfl⟩
  | @action n k s t u hp hb ha _ ih =>
    intro r o
    have ha' : phaseAction (withShift r o s) = .ok (withShift r o t) := by rw [phaseAction_withShift, ha]; rfl
    have hstep := fineStep_of_action (s := withShift r o s) ⟨hs.cfg, hs.reset, hs.count⟩ hp hb ha'
    rw [nextPhase_withShift] at hstep
    obtain ⟨r', o', hrest⟩ := ih (atByteBoundary_nextPhase (atByteBoundary_phaseAction hs ha)) r o
    exact ⟨r', o', by rw [iterate, hstep]; exact hrest⟩
  | @byte n k s u o' b hb _ ih =>
    intro r o
    obtain ⟨r', hbyte⟩ := iterate_fineStep_byte (s := withShift r o s) ⟨hs.cfg, hs.reset, hs.count⟩ hb
    rw [txByte_withShift, nextPhase_withShift] at hbyte
    obtain ⟨r'', o'', hrest⟩ := ih (atByteBoundary_nextPhase (atByteBoundary_txByte hs o' b)) r' o'
    exact ⟨r'', o'', Nat.add_comm 9 k ▸ iterate_add hbyte hrest⟩

/-! ### The phase table, a row at a time -/

/-- The state inside a command that began in `s`: the events emitted so far, the phase, the two counters, the polarity. -/
def inCommand (es : List PinEvent) (p : Phase) (i j : Nat) (v : Bit) (s : State) : State :=
  { s with
    trace := s.trace ++ es
    cs := levelAfter .cs s.cs es
    clk := levelAfter .clk s.clk es
    data := levelAfter .data s.data es
    busy := true
    phase := p
    row := i
    col := j
    vcom := v }

theorem enterPhase_eq_inCommand (p : Phase) (s : State) : enterPhase p s = inCommand [] p s.row s.col s.vcom s := by
  rw [inCommand, List.append_nil]; rfl

section
variable {es : List PinEvent} {p : Phase} {i j : Nat} {v : Bit} {s : State}

theorem emitAll_inCommand (fs : List PinEvent) :
    emitAll fs (inCommand es p i j v s) = inCommand (es ++ fs) p i j v s := by
  simp only [emitAll_eq, inCommand, levelAfter_append, List.append_assoc]

/-- A phase that emits events and writes no other register. -/
theorem phaseRun_emit {t : State} (hp : p ≠ .idle) (hb : phaseByte (inCommand es p i j v s) = none) (fs : List PinEvent)
    (ha : phaseAction (inCommand es p i j v s) = .ok (emitAll fs (inCommand es p i j v s)))
    (hn : nextPhase (inCommand (es ++ fs) p i j v s) = t) : PhaseRun 1 1 (inCommand es p i j v s) t :=
  .action hp hb ha (by rw [emitAll_inCommand, hn]; exact .refl t)

/-- A phase that transmits a byte. -/
theorem phaseRun_byte {t : State} {o : BitOrder} {b : Byte} (hb : phaseByte (inCommand es p i j v s) = some (o, .ok b))
    (hn : nextPhase (inCommand (es ++ txEvents o b) p i j v s) = t) : PhaseRun 1 9 (inCommand es p i j v s) t :=
  .byte hb (by rw [txByte_eq_emitAll, emitAll_inCommand, hn]; exact .refl t)

theorem phaseRun_cCs : PhaseRun 1 1 (inCommand es .cCs i j v s)
    (inCommand (es ++ [⟨.cs, s.cfg.csActive⟩]) .cCmd i j v s) := phaseRun_emit nofun rfl _ rfl rfl

theorem phaseRun_cCmd : PhaseRun 1 9 (inCommand es .cCmd i j v s)
    (inCommand (es ++ txEvents .msb (clearCommandByte s.cfg v)) .cPad i j v s) := phaseRun_byte rfl rfl

theorem phaseRun_cPad : PhaseRun 1 9 (inCommand es .cPad i j v s)
    (inCommand (es ++ txEvents .lsb 0x00) .cFlip i j v s) := phaseRun_byte rfl rfl

theorem phaseRun_cFlip : PhaseRun 1 1 (inCommand es .cFlip i j v s) (inCommand es .cUncs i j (!v) s) :=
  .action nofun rfl rfl (.refl _)

theorem phaseRun_cUncs : PhaseRun 1 1 (inCommand es .cUncs i j v s)
    (inCommand (es ++ [⟨.cs, !s.cfg.csActive⟩]) .cFill i j v s) := phaseRun_emit nofun rfl _ rfl rfl

theorem phaseRun_cFill : PhaseRun 1 1 (inCommand es .cFill i j v s)
    (inCommand es .done i j v { s with fb := filled s }) :=
  .action nofun rfl (clearBits_eq _) (.refl _)

theorem phaseRun_rCs : PhaseRun 1 1 (inCommand es .rCs i j v s)
    (inCommand (es ++ [⟨.cs, s.cfg.csActive⟩]) .rCmd i j v s) := phaseRun_emit nofun rfl _ rfl rfl

theorem phaseRun_rCmd : PhaseRun 1 9 (inCommand es .rCmd i j v s)
    (inCommand (es ++ txEvents .msb (writeCommandByte s.cfg v)) .rFlip i j v s) := phaseRun_byte rfl rfl

theorem phaseRun_rFlip : PhaseRun 1 1 (inCommand es .rFlip i j v s) (inCommand es .rAddr 0 j (!v) s) :=
  .action nofun rfl rfl (.refl _)

theorem phaseRun_rAddr : PhaseRun 1 9 (inCommand es .rAddr i j v s)
    (inCommand (es ++ txEvents .lsb (BitVec.ofNat 8 (i + 1))) .rData i 0 v s) := phaseRun_byte rfl rfl

theorem phaseRun_rData (hlt : i * bpr s.cfg + j < fbBytes s.cfg) : PhaseRun 1 9 (inCommand es .rData i j v s)
    (inCommand (es ++ txEvents .lsb (Memory.lookup s.fb (i * bpr s.cfg + j)))
      (if j + 1 < bpr s.cfg then .rData else .rEol) i (j + 1) v s) :=
  phaseRun_byte (congrArg (fun e => some (BitOrder.lsb, e)) (fbRead_of_lt (s := inCommand es .rData i j v s) hlt)) rfl

theorem phaseRun_rEol : PhaseRun 1 9 (inCommand es .rEol i j v s)
    (inCommand (es ++ txEvents .lsb 0x00) (if i + 1 < s.cfg.h then .rAddr else .rTrail) (i + 1) j v s) :=
  phaseRun_byte rfl rfl

theorem phaseRun_rTrail : PhaseRun 1 9 (inCommand es .rTrail i j v s)
    (inCommand (es ++ txEvents .msb 0x00) .rUncs i j v s) := phaseRun_byte rfl rfl

theorem phaseRun_rUncs : PhaseRun 1 1 (inCommand es .rUncs i j v s)
    (inCommand (es ++ [⟨.cs, !s.cfg.csActive⟩]) .done i j v s) := phaseRun_emit nofun rfl _ rfl rfl

theorem phaseRun_done : PhaseRun 1 1 (inCommand es .done i j v s)
    { respond true false (inCommand es .done i j v s) with busy := false, phase := .idle } :=
  .action nofun rfl rfl (.refl _)

/-- The bytes of a row from byte `j` on (42_framer.md R155, step 4b). -/
theorem phaseRun_rowData (hle : i * bpr s.cfg + bpr s.cfg ≤ fbBytes s.cfg) (k : Nat) : ∀ {j : Nat} {es : List PinEvent},
    j + (k + 1) = bpr s.cfg → PhaseRun (k + 1) (9 * (k + 1)) (inCommand es .rData i j v s)
      (inCommand (es ++ frameEvents ((List.range' j (k + 1)).map fun m =>
        (BitOrder.lsb, Memory.lookup s.fb (i * bpr s.cfg + m)))) .rEol i (bpr s.cfg) v s) := by
  induction k with
  | zero =>
    intro j es hj
    have hbyte := phaseRun_rData (es := es) (i := i) (j := j) (v := v) (s := s) (by omega)
    rw [if_neg (by omega), hj] at hbyte
    simpa [frameEvents] using hbyte
  | succ k ih =>
    intro j es hj
    have hbyte := phaseRun_rData (es := es) (i := i) (j := j) (v := v) (s := s) (by omega)
    rw [if_pos (by omega)] at hbyte
    rw [List.range'_succ, List.map_cons, frameEvents_cons, ← List.append_assoc]
    exact hbyte.trans (ih (by omega))

/-- One row: its address, its bytes, its trailer (42_framer.md R155, step 4). -/
theorem phaseRun_row (hc : s.cfg.Wf) (hi : i < s.cfg.h) :
    PhaseRun (bpr s.cfg + 2) (9 * (bpr s.cfg + 2)) (inCommand es .rAddr i j v s)
      (inCommand (es ++ frameEvents (rowFrame s i)) (if i + 1 < s.cfg.h then .rAddr else .rTrail) (i + 1) (bpr s.cfg) v s) := by
  obtain ⟨k, hk⟩ := Nat.exists_eq_add_of_lt (bpr_pos hc)
  have hdata := phaseRun_rowData (v := v) (es := es ++ txEvents .lsb (BitVec.ofNat 8 (i + 1))) (row_le hc hi) k
    (j := 0) (by omega)
  have hrow := (phaseRun_rAddr (j := j)).trans (hdata.trans phaseRun_rEol)
  rw [show k + 1 = bpr s.cfg by omega, ← List.range_eq_range'] at hrow
  have hevents : es ++ frameEvents (rowFrame s i) = es ++ txEvents .lsb (BitVec.ofNat 8 (i + 1)) ++
      frameEvents ((List.range (bpr s.cfg)).map fun m => (BitOrder.lsb, Memory.lookup s.fb (i * bpr s.cfg + m))) ++
      txEvents .lsb 0x00 := by
    simp [rowFrame, frameEvents]
  rw [hevents]
  exact hrow.of_eq (by omega) (by omega)

/-- The rows of a frame from row `i` on. -/
theorem phaseRun_rows (hc : s.cfg.Wf) (k : Nat) : ∀ {i j : Nat} {es : List PinEvent}, i + (k + 1) = s.cfg.h →
    PhaseRun ((k + 1) * (bpr s.cfg + 2)) (9 * ((k + 1) * (bpr s.cfg + 2))) (inCommand es .rAddr i j v s)
      (inCommand (es ++ frameEvents ((List.range' i (k + 1)).flatMap (rowFrame s))) .rTrail s.cfg.h (bpr s.cfg) v s) := by
  induction k with
  | zero =>
    intro i j es hi
    have hrow := phaseRun_row (es := es) (j := j) (v := v) hc (show i < s.cfg.h by omega)
    rw [if_neg (by omega), hi] at hrow
    simpa using hrow
  | succ k ih =>
    intro i j es hi
    have hrow := phaseRun_row (es := es) (j := j) (v := v) hc (show i < s.cfg.h by omega)
    rw [if_pos (by omega)] at hrow
    rw [List.range'_succ, List.flatMap_cons, frameEvents_append, ← List.append_assoc]
    exact (hrow.trans (ih (by omega))).of_eq (by ring) (by ring)

end

/-! ### The two bus commands -/

/-- What the last phase leaves, the internal registers apart. -/
theorem forgetInternal_done {es : List PinEvent} {i j : Nat} {v : Bit} {s : State} (hp : s.phase = .idle)
    (hb : s.busy = false) :
    forgetInternal { respond true false (inCommand es .done i j v s) with busy := false, phase := .idle } =
      forgetInternal (respond true false (emitAll es { s with vcom := v })) := by
  rw [emitAll_eq, ← hp, ← hb]; rfl

/-- 42_framer.md R154, with the framebuffer it leaves written out. -/
theorem exec_clearDisplay_eq {s : State} (hi : s.initOk = true) : exec .clearDisplay s =
    .next (respond true false (emitAll (transaction s.cfg.csActive (clearFrame s))
      { s with vcom := !s.vcom, fb := filled s })) := by
  have hsent : deassertCs (flipVcom (txLsb 0x00 (txMsb (clearCommandByte s.cfg s.vcom) (assertCs s)))) =
      emitAll (transaction s.cfg.csActive (clearFrame s)) (flipVcom s) := by
    rw [← flipVcom_emitAll]; rfl
  have hexec : exec .clearDisplay s =
      finish (clearBits (deassertCs (flipVcom (txLsb 0x00 (txMsb (clearCommandByte s.cfg s.vcom) (assertCs s))))) >>=
        fun t => .ok (respond true false t)) := by
    simp only [exec, execClearDisplay, requireInit_of_ok hi]
    rfl
  rw [hexec, hsent, clearBits_eq, emitAll_eq, emitAll_eq]
  rfl

/-- From `s` on, `n` phases of the table, `k` micro-steps, do what command `i` does, the internal registers apart. -/
def PhasesRunCommand (i : Instr) (p : Phase) (n k : Nat) (s : State) : Prop :=
  ∃ t u, exec i s = .next t ∧ PhaseRun n k (enterPhase p s) u ∧ forgetInternal u = forgetInternal t

/-- The table's phases of a fast clear do what the pseudocode of R154 does (42_framer.md R160). -/
theorem phasesRunCommand_clearDisplay {s : State} (hp : s.phase = .idle) (hb : s.busy = false) (hi : s.initOk = true) :
    PhasesRunCommand .clearDisplay .cCs 7 23 s := by
  have hrun := phaseRun_cCs (es := []) (i := s.row) (j := s.col) (v := s.vcom) (s := s) |>.trans phaseRun_cCmd
    |>.trans phaseRun_cPad |>.trans phaseRun_cFlip |>.trans phaseRun_cUncs |>.trans phaseRun_cFill |>.trans phaseRun_done
  have hevents : [] ++ [⟨.cs, s.cfg.csActive⟩] ++ txEvents .msb (clearCommandByte s.cfg s.vcom) ++ txEvents .lsb 0x00 ++
      [⟨.cs, !s.cfg.csActive⟩] = transaction s.cfg.csActive (clearFrame s) := rfl
  rw [hevents, ← enterPhase_eq_inCommand] at hrun
  exact ⟨_, _, exec_clearDisplay_eq hi, hrun, forgetInternal_done hp hb⟩

/-- The table's phases of a full-frame write do what the pseudocode of R155 does (42_framer.md R160). -/
theorem phasesRunCommand_refreshDisplay {s : State} (hc : s.cfg.Wf) (hp : s.phase = .idle) (hb : s.busy = false)
    (hi : s.initOk = true) : PhasesRunCommand .refreshDisplay .rCs (6 + s.cfg.h * (bpr s.cfg + 2))
      (22 + 9 * (s.cfg.h * (bpr s.cfg + 2))) s := by
  obtain ⟨-, ⟨hh, -⟩, -⟩ := id hc
  obtain ⟨k, hk⟩ := Nat.exists_eq_add_of_le' hh
  have hhead := phaseRun_rCs (es := []) (i := s.row) (j := s.col) (v := s.vcom) (s := s) |>.trans phaseRun_rCmd
    |>.trans phaseRun_rFlip
  have hrows := phaseRun_rows hc k (i := 0) (j := s.col) (v := !s.vcom)
    (es := [] ++ [⟨.cs, s.cfg.csActive⟩] ++ txEvents .msb (writeCommandByte s.cfg s.vcom)) (by omega)
  rw [← hk, ← List.range_eq_range'] at hrows
  have hrun := hhead.trans hrows |>.trans phaseRun_rTrail |>.trans phaseRun_rUncs |>.trans phaseRun_done
  have hevents : [] ++ [⟨.cs, s.cfg.csActive⟩] ++ txEvents .msb (writeCommandByte s.cfg s.vcom) ++
      frameEvents ((List.range s.cfg.h).flatMap (rowFrame s)) ++ txEvents .msb 0x00 ++ [⟨.cs, !s.cfg.csActive⟩] =
      transaction s.cfg.csActive (refreshFrame s) := by
    simp [transaction_eq, refreshFrame, frameEvents]
  rw [hevents, ← enterPhase_eq_inCommand] at hrun
  exact ⟨_, _, exec_refreshDisplay_ok hc hi, hrun.of_eq (by omega) (by omega), forgetInternal_done hp hb⟩

/-- A command whose phases do what it does is refined by the micro-steps from its acceptance on (41_serializer.md R138). -/
theorem iterate_fineStep_refines_step {s : State} {c : Word} {rest : List Word} {i : Instr} {p : Phase} {n k : Nat} (h : Inv s)
    (ha : Accepts s) (hi : s.initOk = true) (hq : s.port = c :: rest) (hd : decode c = .ok i)
    (hacc : acceptWord c { s with port := rest } = .next (enterPhase p { s with port := rest }))
    (hrun : PhasesRunCommand i p n k { s with port := rest }) :
    ∃ t u, step s = .next t ∧ iterate fineStep (1 + k) s = .next u ∧ forgetInternal u = forgetInternal t := by
  obtain ⟨t, u, hexec, hphases, hut⟩ := hrun
  have hstep : step s = .next t := by
    rw [step, stepWith_accept ha hq, ← hexec]
    simp only [runWord, hi, hd, if_true]
  have hfirst : fineStep s = .next (enterPhase p { s with port := rest }) := (stepWith_accept ha hq).trans hacc
  obtain ⟨hc, hp, hr⟩ := ha
  have hboundary : AtByteBoundary (enterPhase p { s with port := rest }) := ⟨hc, hr, h.boundary (by rw [hp]; rfl)⟩
  obtain ⟨r, o, hfine⟩ := hphases.iterate_fineStep hboundary s.sr s.bitOrder
  exact ⟨t, withShift r o u, hstep, iterate_add (iterate_one hfirst) hfine, hut⟩

/-- Settles O47: the phases of either command do what it does, and the micro-steps do what the phases do. -/
theorem microStepsRefineTheAtomicCommand : Obligations.MicroStepsRefineTheAtomicCommand := by
  unfold Obligations.MicroStepsRefineTheAtomicCommand
  intro s c rest h ha hi hq
  obtain ⟨-, hp, -⟩ := id ha
  have hbusy : s.busy = false := by rw [h.busy, hp]; rfl
  constructor
  · intro hd
    refine iterate_fineStep_refines_step h ha hi hq hd ?_ (phasesRunCommand_clearDisplay hp hbusy hi)
    simp only [acceptWord, hi, hd, if_true]
  · intro hd
    have hcount : refreshMicroSteps s.cfg = 1 + (22 + 9 * (s.cfg.h * (bpr s.cfg + 2))) := by
      rw [refreshMicroSteps]; omega
    rw [hcount]
    refine iterate_fineStep_refines_step h ha hi hq hd ?_ (phasesRunCommand_refreshDisplay h.cfg hp hbusy hi)
    simp only [acceptWord, hi, hd, if_true]

end Sys2Proof.Machine
end

section
/-! The display commands and the polarity bit (42_framer.md R150 to R161): what each of the two puts on the lines and leaves
in the state, and how the polarity bit moves over a run of words. -/

namespace Sys2Proof.Machine

/-! ### A transaction from any levels of the lines -/

/-- A frame that ends with a byte leaves the clock low and the data line at that byte's last bit (41_serializer.md R132). -/
theorem emitAll_transaction_append (a : Bit) (f : List (BitOrder × Byte)) (o : BitOrder) (b : Byte) (s : State) :
    emitAll (transaction a (f ++ [(o, b)])) s =
      { s with trace := s.trace ++ transaction a (f ++ [(o, b)]), cs := !a, clk := false, data := lastBit o b } := by
  have hends : transaction a (f ++ [(o, b)]) = (⟨.cs, a⟩ :: frameEvents f) ++ txEvents o b ++ [⟨.cs, !a⟩] := by
    simp [transaction_eq, frameEvents]
  have hclk : levelAfter .clk s.clk (transaction a (f ++ [(o, b)])) = false := by
    rw [hends, levelAfter_append, levelAfter_append, levelAfter_txEvents_clk]; rfl
  have hdata : levelAfter .data s.data (transaction a (f ++ [(o, b)])) = lastBit o b := by
    rw [hends, levelAfter_append, levelAfter_append, levelAfter_txEvents_data]; rfl
  rw [emitAll_eq, levelAfter_transaction_cs, hclk, hdata]

/-- The first byte read off the wire of a transaction is the first byte of its frame (41_serializer.md R137). -/
theorem wireBytes_transaction_head (a d : Bit) (o : BitOrder) (b : Byte) (f : List (BitOrder × Byte)) :
    wireBytes [o] (wireBits d (transaction a ((o, b) :: f))) = [b] := by
  rw [wireBits_transaction, List.flatMap_cons, wireBytes, List.take_left' (byteBits_length _ _), byteOfBits_byteBits,
    wireBytes]

/-! ### CLEAR_DISPLAY and REFRESH_DISPLAY -/

/-- Settles O36: the frame ends with the pad byte, whose last bit is 0, and every byte was filled. -/
theorem clearDisplaySendsItsFrameAndFills : Obligations.ClearDisplaySendsItsFrameAndFills := by
  unfold Obligations.ClearDisplaySendsItsFrameAndFills
  refine fun s hc hm => ⟨exec_of_not_initOk _, fun hi => ?_⟩
  obtain ⟨m, hexec, hfilled⟩ := exec_clearDisplay_ok hi
  obtain ⟨-, hones⟩ := hfilled hm
  have hframe : clearFrame s = [(.msb, clearCommandByte s.cfg s.vcom)] ++ [(.lsb, 0x00)] := rfl
  rw [hframe, emitAll_transaction_append] at hexec
  refine ⟨_, hexec, rfl, fun a ha => ?_⟩
  rw [Memory.read, if_pos ha]
  exact congrArg some (hones a ha)

/-- The events of a full-frame write, written out (42_framer.md R155). -/
theorem transaction_refreshFrame (s : State) : transaction s.cfg.csActive (refreshFrame s) =
    ⟨.cs, s.cfg.csActive⟩ :: txEvents .msb (writeCommandByte s.cfg s.vcom) ++
      (List.range s.cfg.h).flatMap (fun i =>
        txEvents .lsb (BitVec.ofNat 8 (i + 1)) ++
        (List.range (bpr s.cfg)).flatMap (fun j => txEvents .lsb (Memory.lookup s.fb (i * bpr s.cfg + j))) ++
        txEvents .lsb 0x00) ++
      txEvents .msb 0x00 ++ [⟨.cs, !s.cfg.csActive⟩] := by
  have hrow (i : Nat) : frameEvents (rowFrame s i) = txEvents .lsb (BitVec.ofNat 8 (i + 1)) ++
      (List.range (bpr s.cfg)).flatMap (fun j => txEvents .lsb (Memory.lookup s.fb (i * bpr s.cfg + j))) ++
      txEvents .lsb 0x00 := by
    simp [rowFrame, frameEvents, List.flatMap_map]
  simp only [transaction_eq, refreshFrame, List.cons_append, frameEvents_cons, frameEvents_append, frameEvents_flatMap,
    hrow, List.append_assoc]
  rfl

/-- Settles O37: the frame ends with the trailer byte, whose last bit is 0. -/
theorem refreshDisplaySendsTheWholeFrame : Obligations.RefreshDisplaySendsTheWholeFrame := by
  unfold Obligations.RefreshDisplaySendsTheWholeFrame
  refine fun s hc => ⟨exec_of_not_initOk _, fun hi => ?_⟩
  have hexec := exec_refreshDisplay_ok hc hi
  have hevents := transaction_refreshFrame s
  rw [refreshFrame] at hexec hevents
  rw [hexec, emitAll_transaction_append, hevents]
  rfl

/-- Settles O39: the two bytes are read off the wire, and a pixel of the frame is a bit of a filled byte. -/
theorem clearDisplayIsConsistent : Obligations.ClearDisplayIsConsistent := by
  unfold Obligations.ClearDisplayIsConsistent
  intro s hc hm hi
  obtain ⟨m, hexec, hfilled⟩ := exec_clearDisplay_ok hi
  obtain ⟨-, hones⟩ := hfilled hm
  rw [emitAll_eq] at hexec
  refine ⟨_, transaction s.cfg.csActive (clearFrame s), hexec, rfl, ?_, ?_, fun x y hin => ?_⟩
  · rw [wireBits_transaction]; exact byteBits_flatMap_length _
  · rw [wireBits_transaction]; exact wireBytes_frame (clearFrame s)
  · obtain ⟨px, py, -, hpx, hpy, hl⟩ := locate_of_inRange hin
    exact ⟨_, exec_getPixel_ones hc hi hl (hones _ (pixelIndex_lt hc hpx hpy)), rfl⟩

/-- Settles O40: both counts follow from the length of the frame. -/
theorem frameSizes : Obligations.FrameSizes := by
  unfold Obligations.FrameSizes
  intro s hc hi
  obtain ⟨m, hclear, -⟩ := exec_clearDisplay_ok hi
  have hrefresh := exec_refreshDisplay_ok hc hi
  rw [emitAll_eq] at hclear hrefresh
  refine ⟨_, _, _, _, hclear, rfl, transaction_length _ _, ?_, hrefresh, rfl, ?_, ?_⟩
  · rw [wireBits_transaction, byteBits_flatMap_length, clearFrame_length]
  · rw [transaction_length, refreshFrame_length]
  · rw [wireBits_transaction, byteBits_flatMap_length, refreshFrame_length]

/-- Settles O42: neither the error nor the frame reads the rotation. -/
theorem refreshIgnoresTheRotation : Obligations.RefreshIgnoresTheRotation := by
  unfold Obligations.RefreshIgnoresTheRotation
  intro s r hc
  obtain hi | hi := Bool.eq_false_or_eq_true s.initOk
  · refine ⟨_, exec_refreshDisplay_ok hc hi, (exec_refreshDisplay_ok (s := { s with rot := r }) hc hi).trans ?_⟩
    simp only [emitAll_eq]
    rfl
  · exact ⟨_, exec_of_not_initOk _ hi, exec_of_not_initOk (s := { s with rot := r }) _ hi⟩

/-- Settles O46: the runs of phases of the two commands, one phase a step. -/
theorem phaseTableRunsTheBusCommands : Obligations.PhaseTableRunsTheBusCommands := by
  unfold Obligations.PhaseTableRunsTheBusCommands
  intro s hc hp hb hi
  obtain ⟨t, u, hclear, hclearRun, hclearEq⟩ := phasesRunCommand_clearDisplay hp hb hi
  obtain ⟨t', u', hrefresh, hrefreshRun, hrefreshEq⟩ := phasesRunCommand_refreshDisplay hc hp hb hi
  exact ⟨⟨t, u, hclear, hclearRun.iterate_phaseStep, hclearEq⟩,
    ⟨t', u', hrefresh, hrefreshRun.iterate_phaseStep, hrefreshEq⟩⟩

/-! ### The polarity bit of one step -/

/-- The two bus commands (42_framer.md R153). -/
def isBusCommand : Instr → Bool
  | .clearDisplay | .refreshDisplay => true
  | .setPixel _ _ _ | .getPixel _ _ | .setRotation _ => false

theorem isBusWord_of_decode_ok {c : Word} {i : Instr} (hd : decode c = .ok i) : isBusWord c = isBusCommand i := by
  rw [isBusWord, hd]
  cases i <;> simp [isBusCommand]

theorem isBusWord_of_decode_error {c : Word} {e : DecodeError} (hd : decode c = .error e) : isBusWord c = false := by
  simp [isBusWord, hd]

theorem decode_of_isBusWord {c : Word} (h : isBusWord c = true) :
    decode c = .ok .clearDisplay ∨ decode c = .ok .refreshDisplay := by
  simpa [isBusWord] using h

/-- A command of an initialised block flips the polarity exactly when it is a bus command (42_framer.md R153). -/
theorem vcom_of_exec {i : Instr} {s t : State} (hc : s.cfg.Wf) (hi : s.initOk = true) (h : exec i s = .next t) :
    t.vcom = (s.vcom ^^ isBusCommand i) := by
  have hkeep : s.vcom = (s.vcom ^^ false) := (Bool.xor_false _).symm
  cases i with
  | setPixel x y v =>
    cases hl : locate s.rot s.cfg x y with
    | none => cases (exec_setPixel_clipped hi hl).symm.trans h; exact hkeep
    | some p => cases (exec_setPixel_located hi hl (locate_lt hc hl).1).symm.trans h; exact hkeep
  | getPixel x y =>
    cases hl : locate s.rot s.cfg x y with
    | none => cases (exec_getPixel_clipped hi hl).symm.trans h; exact hkeep
    | some p => cases (exec_getPixel_located hi hl (locate_lt hc hl).1).symm.trans h; exact hkeep
  | setRotation r => cases (exec_setRotation_ok r hi).symm.trans h; exact hkeep
  | clearDisplay =>
    cases (exec_clearDisplay_eq hi).symm.trans h
    rw [emitAll_eq]
    exact (Bool.xor_true _).symm
  | refreshDisplay =>
    cases (exec_refreshDisplay_ok hc hi).symm.trans h
    rw [emitAll_eq]
    exact (Bool.xor_true _).symm

/-- An error leaves the polarity alone; a command is `vcom_of_exec`. -/
theorem vcom_of_runWord {c : Word} {s t : State} (hc : s.cfg.Wf) (h : runWord c s = .next t) :
    t.vcom = (s.vcom ^^ (s.initOk && isBusWord c)) := by
  obtain ⟨hi, he⟩ | ⟨-, ⟨e, hd⟩, he⟩ | ⟨hi, i, hd, he⟩ := runWord_cases c s
  · cases he.symm.trans h
    rw [hi, Bool.false_and, Bool.xor_false]; rfl
  · cases he.symm.trans h
    rw [isBusWord_of_decode_error hd, Bool.and_false, Bool.xor_false]; rfl
  · rw [vcom_of_exec hc hi (he.symm.trans h), hi, isBusWord_of_decode_ok hd, Bool.true_and]

/-- In the finer machine no word flips the polarity when it is accepted (42_framer.md R161). -/
theorem vcom_of_acceptWord {c : Word} {s t : State} (hc : s.cfg.Wf) (h : acceptWord c s = .next t) : t.vcom = s.vcom := by
  obtain ⟨he, hbus⟩ | ⟨-, -, he⟩ | ⟨-, -, he⟩ := acceptWord_cases c s
  · rw [vcom_of_runWord hc (he.symm.trans h), hbus, Bool.xor_false]
  · cases he.symm.trans h; rfl
  · cases he.symm.trans h; rfl

/-- A micro-step flips the polarity exactly in the two FLIP phases, which transmit no byte (42_framer.md R160). -/
theorem vcom_of_bitStep {s t : State} (h : bitStep s = .next t) :
    t.vcom = (s.vcom ^^ decide (s.phase = .cFlip ∨ s.phase = .rFlip)) := by
  have hsending (ht : transmits s.phase = true) : ¬ (s.phase = .cFlip ∨ s.phase = .rFlip) := by
    rintro (hp | hp) <;> rw [hp] at ht <;> cases ht
  obtain ⟨-, u, hu, rfl⟩ | ⟨ht, -, b, r, o, rfl⟩ | ⟨ht, -, rfl⟩ := bitStep_cases h
  case inl =>
    obtain ⟨v, hv, heq, -⟩ := phaseAction_cases s
    cases hu.symm.trans hv
    rw [nextPhase_eq, heq]
    by_cases hflip : s.phase = .cFlip ∨ s.phase = .rFlip
    · simp only [if_pos hflip, decide_eq_true hflip, Bool.xor_true]
    · simp only [if_neg hflip, decide_eq_false hflip, Bool.xor_false]
  case inr.inl => simp only [decide_eq_false (hsending ht), Bool.xor_false]
  case inr.inr => rw [nextPhase_eq]; simp only [decide_eq_false (hsending ht), Bool.xor_false]

/-- Settles O44: the cases of a step, and the word or the micro-step it takes. -/
theorem polarityFlipsExactlyOncePerBusCommand : Obligations.PolarityFlipsExactlyOncePerBusCommand := by
  unfold Obligations.PolarityFlipsExactlyOncePerBusCommand
  intro s t hr
  constructor
  · intro h hp
    have hc : s.cfg.Wf := wf_of_stepWith h
    obtain ⟨d, hd, -⟩ | ⟨-, -, hq, rfl⟩ | ⟨-, -, c, rest, hq, hw⟩ | ⟨-, hne, -⟩ := stepWith_cases h
    · simp [hr] at hd
    · simp only [hq, Bool.and_false, Bool.xor_false]
    · rw [hq]; exact vcom_of_runWord (s := { s with port := rest }) hc hw
    · exact absurd hp hne
  · intro h
    have hc : s.cfg.Wf := wf_of_stepWith h
    obtain ⟨d, hd, -⟩ | ⟨-, hp, -, rfl⟩ | ⟨-, hp, c, rest, -, hw⟩ | ⟨-, -, hb⟩ := stepWith_cases h
    · simp [hr] at hd
    · simp [hp]
    · simp [hp, vcom_of_acceptWord (s := { s with port := rest }) hc hw]
    · exact vcom_of_bitStep hb

/-! ### The polarity bit over a run of words -/

/-- A word that is run leaves the port, the phase and the reset input alone (60_exceptions.md R203). -/
theorem runWord_frame {c : Word} {s t : State} (hc : s.cfg.Wf) (h : runWord c s = .next t) :
    t.port = s.port ∧ t.phase = s.phase ∧ t.resetIn = s.resetIn := by
  obtain ⟨-, he⟩ | ⟨-, -, he⟩ | ⟨hi, i, -, he⟩ := runWord_cases c s
  · cases he.symm.trans h; exact ⟨rfl, rfl, rfl⟩
  · cases he.symm.trans h; exact ⟨rfl, rfl, rfl⟩
  · obtain ⟨fb, rot, vcom, es, d, hcompletes⟩ := exec_completes i hc hi
    cases hcompletes.symm.trans (he.symm.trans h)
    rw [emitAll_eq]
    exact ⟨rfl, rfl, rfl⟩

/-- The block has run `n` bus commands since state `s`, is at a command boundary, and has the words `ws` left. -/
structure AfterBusCommands (s : State) (n : Nat) (ws : List Word) (t : State) : Prop where
  inv : Inv t
  accepts : Accepts t
  initOk : t.initOk = true
  cfg : t.cfg = s.cfg
  port : t.port = ws
  /-- The polarity has been flipped `n` times (42_framer.md R157). -/
  vcom : t.vcom = (s.vcom ^^ decide (n % 2 = 1))

/-- The parity of a count after one more word (42_framer.md R157). -/
theorem decide_add_ite_mod_two (n : Nat) (b : Bool) :
    decide ((n + if b then 1 else 0) % 2 = 1) = (decide (n % 2 = 1) ^^ b) := by
  cases b with
  | false => simp
  | true =>
    rw [if_pos rfl, Bool.xor_true, ← decide_not, decide_eq_decide]
    omega

/-- One step takes one word, and counts it when it is a bus command. -/
theorem AfterBusCommands.step {s t : State} {n : Nat} {c : Word} {ws : List Word} (h : AfterBusCommands s n (c :: ws) t) :
    ∃ u, Machine.step t = .next u ∧ AfterBusCommands s (n + if isBusWord c then 1 else 0) ws u := by
  obtain ⟨hc, hp, hr⟩ := h.accepts
  obtain ⟨u, hrun, hinv⟩ := inv_runWord c (inv_setPort h.inv ws) hp
  obtain ⟨hport, hphase, hreset⟩ := runWord_frame (s := { t with port := ws }) hc hrun
  have hevolves := evolves_runWord (s := { t with port := ws }) hc hrun
  have hcfg : u.cfg = t.cfg := hevolves.cfg
  refine ⟨u, (stepWith_accept h.accepts h.port).trans hrun, hinv, ⟨hcfg ▸ hc, hphase.trans hp, hreset.trans hr⟩,
    hevolves.initOk.trans h.initOk, hcfg.trans h.cfg, hport, ?_⟩
  rw [vcom_of_runWord (s := { t with port := ws }) hc hrun, decide_add_ite_mod_two, ← Bool.xor_assoc, ← h.vcom]
  simp only [h.initOk, Bool.true_and]

/-- A run of words, one step a word. -/
theorem AfterBusCommands.iterate_step {s : State} {ws : List Word} (pre : List Word) : ∀ {n : Nat} {t : State},
    AfterBusCommands s n (pre ++ ws) t →
      ∃ u, iterate Machine.step pre.length t = .next u ∧ AfterBusCommands s (n + pre.countP isBusWord) ws u := by
  induction pre with
  | nil => exact fun h => ⟨_, rfl, h⟩
  | cons c pre ih =>
    intro n t h
    obtain ⟨u, hstep, hu⟩ := h.step
    obtain ⟨v, hrun, hv⟩ := ih hu
    refine ⟨v, ?_, ?_⟩
    · rw [List.length_cons, iterate, hstep]
      exact hrun
    · rw [List.countP_cons, Nat.add_comm (pre.countP isBusWord), ← Nat.add_assoc]
      exact hv

/-- The command byte of a bus word carries the polarity before it (42_framer.md R152, 30_encoding.md R79). -/
theorem commandByte_of_runWord {c : Word} {s u : State} (hc : s.cfg.Wf) (hi : s.initOk = true) (hbus : isBusWord c = true)
    (h : runWord c s = .next u) : ∃ es, u.trace = s.trace ++ es ∧ wireBytes [.msb] (wireBits s.data es) =
      [(if decode c = .ok .clearDisplay then s.cfg.clearCommand else s.cfg.writeCommand) ||| vmask s.cfg s.vcom] := by
  have hexec {i : Instr} (hd : decode c = .ok i) : exec i s = .next u := by
    rw [← h]; simp only [runWord, hi, hd, if_true]
  obtain hd | hd := decode_of_isBusWord hbus
  · cases (exec_clearDisplay_eq hi).symm.trans (hexec hd)
    rw [emitAll_eq, if_pos hd]
    exact ⟨_, rfl, wireBytes_transaction_head _ _ _ _ _⟩
  · cases (exec_refreshDisplay_ok hc hi).symm.trans (hexec hd)
    rw [emitAll_eq, if_neg (by simp [hd])]
    exact ⟨_, rfl, wireBytes_transaction_head _ _ _ _ _⟩

/-- Settles O45: the run up to the bus command, then its own step. -/
theorem polarityAlternates : Obligations.PolarityAlternates := by
  unfold Obligations.PolarityAlternates
  intro s pre post c hinv ha hi hq hbus
  have hstart : AfterBusCommands s 0 (pre ++ c :: post) s := ⟨hinv, ha, hi, rfl, hq, (Bool.xor_false _).symm⟩
  obtain ⟨t, hrun, ht⟩ := hstart.iterate_step
  obtain ⟨u, hstep, hu⟩ := ht.step
  rw [Nat.zero_add] at ht hu
  rw [if_pos hbus] at hu
  have hword : runWord c { t with port := post } = .next u := (stepWith_accept ht.accepts ht.port).symm.trans hstep
  obtain ⟨es, htrace, hbyte⟩ := commandByte_of_runWord (s := { t with port := post }) ht.inv.cfg ht.initOk hbus hword
  refine ⟨t, u, es, hrun, ht.vcom, hstep, hu.port, htrace, hbyte.trans ?_, hu.vcom⟩
  rw [← ht.vcom, ← ht.cfg]

end Sys2Proof.Machine
end

section
/-! Errors and the command port (60_exceptions.md R200 to R215): the branches of R203 as equations, the completion record of
an accepted word, and what a running command leaves on the port. -/

namespace Sys2Proof.Machine

/-! ### The branches of an accepted word -/

/-- R203: NOT_INITIALISED comes first, whatever the word decodes to. -/
theorem runWord_of_not_initOk (c : Word) {s : State} (hi : s.initOk = false) :
    runWord c s = .next (raiseError .notInitialised s) := by
  simp [runWord, hi]

/-- R203: an initialised block raises ILLEGAL_COMMAND for a word that decodes to no command. -/
theorem runWord_of_decode_error {c : Word} {s : State} {e : DecodeError} (hi : s.initOk = true) (hd : decode c = .error e) :
    runWord c s = .next (raiseError .illegalCommand s) := by
  simp [runWord, hi, hd]

/-- R202, R203: a word that decodes to a command runs that command's rule, whose prologue raises the error of a block that is
not initialised. -/
theorem runWord_of_decode_ok {c : Word} {i : Instr} (hd : decode c = .ok i) (s : State) : runWord c s = exec i s := by
  cases hi : s.initOk with
  | false => rw [runWord_of_not_initOk c hi, exec_of_not_initOk i hi]
  | true => simp [runWord, hi, hd]

/-! ### The completion record -/

/-- R215: a command of an initialised block other than GET_PIXEL responds (1, 0). -/
theorem completions_of_exec {i : Instr} {s t : State} (hc : s.cfg.Wf) (hi : s.initOk = true)
    (hget : ∀ x y, i ≠ .getPixel x y) (h : exec i s = .next t) : t.completions = s.completions ++ [⟨true, false⟩] := by
  cases i with
  | setPixel x y v =>
    cases hl : locate s.rot s.cfg x y with
    | none => cases (exec_setPixel_clipped hi hl).symm.trans h; rfl
    | some p => cases (exec_setPixel_located hi hl (locate_lt hc hl).1).symm.trans h; rfl
  | getPixel x y => exact absurd rfl (hget x y)
  | setRotation r => cases (exec_setRotation_ok r hi).symm.trans h; rfl
  | clearDisplay => cases (exec_clearDisplay_eq hi).symm.trans h; rw [emitAll_eq]; rfl
  | refreshDisplay => cases (exec_refreshDisplay_ok hc hi).symm.trans h; rw [emitAll_eq]; rfl

/-- R202, R215: a command of an initialised block raises no error and responds once with `ok` 1, and with `d` 1 only when it
is GET_PIXEL. -/
theorem exec_responds_ok (i : Instr) {s : State} (hc : s.cfg.Wf) (hi : s.initOk = true) : ∃ t d, exec i s = .next t ∧
    t.err = s.err ∧ t.errCause = s.errCause ∧ t.completions = s.completions ++ [⟨true, d⟩] ∧
    (d = true → ∃ x y, i = .getPixel x y) := by
  obtain ⟨fb, rot, vcom, es, d, hexec⟩ := exec_completes i hc hi
  rw [emitAll_eq] at hexec
  refine ⟨_, d, hexec, rfl, rfl, rfl, fun hd => ?_⟩
  by_contra hget
  have hoff := completions_of_exec hc hi (by simpa using hget) hexec
  simp [hd] at hoff

/-- R203, R215: every word that is run responds once, with `ok` 1 exactly when it is a command of an initialised block. -/
theorem runWord_responds (c : Word) {s : State} (hc : s.cfg.Wf) : ∃ t r, runWord c s = .next t ∧
    t.completions = s.completions ++ [r] ∧ (r.ok = true ↔ s.initOk = true ∧ ∃ i, decode c = .ok i) ∧
    (r.d = true → ∃ x y, decode c = .ok (.getPixel x y)) := by
  obtain ⟨hi, he⟩ | ⟨-, ⟨e, hd⟩, he⟩ | ⟨hi, i, hd, he⟩ := runWord_cases c s
  · exact ⟨_, ⟨false, false⟩, he, rfl, by simp [hi], by simp⟩
  · exact ⟨_, ⟨false, false⟩, he, rfl, by simp [hd], by simp⟩
  · obtain ⟨t, d, hexec, -, -, hcompletions, hget⟩ := exec_responds_ok i hc hi
    refine ⟨t, ⟨true, d⟩, he.trans hexec, hcompletions, by simp [hi, hd], fun hone => ?_⟩
    obtain ⟨x, y, rfl⟩ := hget hone
    exact ⟨x, y, hd⟩

/-! ### A running command -/

/-- R212, 42_framer.md R160: a micro-step leaves the port alone, and only phase DONE, which transmits no byte, responds. -/
theorem port_completions_of_bitStep {s t : State} (h : bitStep s = .next t) : t.port = s.port ∧
    t.completions = if s.phase = .done then s.completions ++ [⟨true, false⟩] else s.completions := by
  have hsending (ht : transmits s.phase = true) : s.phase ≠ .done := by
    intro hp; rw [hp] at ht; cases ht
  obtain ⟨-, u, hu, rfl⟩ | ⟨ht, -, b, r, o, rfl⟩ | ⟨ht, -, rfl⟩ := bitStep_cases h
  case inl =>
    obtain ⟨v, hv, heq, -⟩ := phaseAction_cases s
    cases hu.symm.trans hv
    rw [nextPhase_eq, heq]
    exact ⟨rfl, rfl⟩
  case inr.inl => exact ⟨rfl, (if_neg (hsending ht)).symm⟩
  case inr.inr => rw [nextPhase_eq]; exact ⟨rfl, (if_neg (hsending ht)).symm⟩

/-! ### The obligations of 60_exceptions.md -/

/-- Settles O7: the three branches of R203, the last answered by the command's own rule. -/
theorem acceptedWordFollowsThePriority : Obligations.AcceptedWordFollowsThePriority := by
  unfold Obligations.AcceptedWordFollowsThePriority
  intro s c rest ha hq
  have hstep : step s = runWord c { s with port := rest } := stepWith_accept ha hq
  refine ⟨fun hi => hstep.trans (runWord_of_not_initOk c hi), fun hi e hd => hstep.trans (runWord_of_decode_error hi hd),
    fun hi i hd => ?_⟩
  obtain ⟨hc, -⟩ := ha
  obtain ⟨t, d, hexec, herr, hcause, hcompletions, -⟩ := exec_responds_ok i (s := { s with port := rest }) hc hi
  exact ⟨t, d, hstep.trans (runWord_of_decode_ok hd _), hexec, herr, hcause, hcompletions⟩

/-- Settles O10: the step runs the word, which responds once and leaves the port and the phase alone. -/
theorem everyAcceptedWordCompletesOnce : Obligations.EveryAcceptedWordCompletesOnce := by
  unfold Obligations.EveryAcceptedWordCompletesOnce
  intro s c rest _ ha hq
  obtain ⟨hc, hp, -⟩ := id ha
  obtain ⟨t, r, hrun, hresponds⟩ := runWord_responds c (s := { s with port := rest }) hc
  obtain ⟨hport, hphase, -⟩ := runWord_frame (s := { s with port := rest }) hc hrun
  exact ⟨t, r, (stepWith_accept ha hq).trans hrun, hport, hphase.trans hp, hresponds⟩

/-- Settles O11: a step inside a command is a micro-step. -/
theorem runningCommandHoldsThePort : Obligations.RunningCommandHoldsThePort := by
  unfold Obligations.RunningCommandHoldsThePort
  intro s t hp hr h
  exact port_completions_of_bitStep ((stepWith_running (wf_of_stepWith h) hr hp).symm.trans h)

/-- Settles O6: the step runs the word, and the word its command. -/
theorem stepRunsTheDecodedCommand : Obligations.StepRunsTheDecodedCommand := by
  unfold Obligations.StepRunsTheDecodedCommand
  exact fun s c rest i ha hq hd => (stepWith_accept ha hq).trans (runWord_of_decode_ok hd _)

/-- Settles O8: the latch and the record, as `raiseError_eq` has them. -/
theorem raisedErrorLatchesTheFirstCause : Obligations.RaisedErrorLatchesTheFirstCause := by
  unfold Obligations.RaisedErrorLatchesTheFirstCause
  exact fun cause s => raiseError_eq s cause

/-- Settles O9: the prologue of each command. -/
theorem uninitialisedBlockRejectsEveryCommand : Obligations.UninitialisedBlockRejectsEveryCommand := by
  unfold Obligations.UninitialisedBlockRejectsEveryCommand
  exact fun i s => exec_of_not_initOk i

/-- Settles O12: a step that finds no word waits. -/
theorem idleBlockWaitsForAWord : Obligations.IdleBlockWaitsForAWord := by
  unfold Obligations.IdleBlockWaitsForAWord
  exact fun s => stepWith_wait

/-- Settles O19: the configuration is checked before anything else. -/
theorem illegalConfigurationIsRefused : Obligations.IllegalConfigurationIsRefused := by
  unfold Obligations.IllegalConfigurationIsRefused
  exact fun s => stepWith_refuses

end Sys2Proof.Machine
end

section
/-! Reset and a failed initialisation (70_reset_and_hazards.md R230 to R232, R236): what RESET writes in either machine, the
block that only raises NOT_INITIALISED until the next reset, and the state after a successful reset. -/

namespace Sys2Proof.Machine

/-! ### RESET -/

/-- R230, `FB <- FB_INIT`: a byte the list holds is the byte read at its index. -/
theorem read_ofBytes_of_getElem? {size a : Nat} {bs : List Byte} {b : Byte} (ha : a < size) (hb : bs[a]? = some b) :
    Memory.read size (Memory.ofBytes size bs) a = some b := by
  rw [read_ofBytes bs ha, List.getD_eq_getElem?_getD, hb, Option.getD_some]

/-- R231: the rotation and the polarity after a successful initialisation. -/
theorem applyReset_of_allocOk {d : ResetDraw} (hd : d.allocOk = true) (s : State) :
    (applyReset d s).rot = .r0 ∧ (applyReset d s).vcom = s.cfg.vcomInit := by
  simp [hd]

/-- Settles O16: both machines answer `applyReset`, whose fields R230 and R231 give. -/
theorem resetInitialisesTheBlock : Obligations.ResetInitialisesTheBlock := by
  unfold Obligations.ResetInitialisesTheBlock
  intro s d hc hr
  refine ⟨applyReset d s, stepWith_reset hc hr, stepWith_reset hc hr, rfl, rfl, rfl, rfl, rfl, rfl, rfl, rfl, rfl, rfl,
    ⟨[], List.append_nil _⟩, fun hd => ?_⟩
  obtain ⟨hrot, hvcom⟩ := applyReset_of_allocOk hd s
  exact ⟨hrot, hvcom, fun a ha b hb => read_ofBytes_of_getElem? ha hb⟩

/-! ### A failed initialisation -/

/-- R232: a block that is not initialised runs no command, so without a reset it takes the next word on its port. -/
theorem accepts_of_not_initOk {s : State} (h : Inv s) (hi : s.initOk = false) (hr : s.resetIn = none) : Accepts s := by
  refine ⟨h.cfg, ?_, hr⟩
  by_contra hp
  have hinit : s.initOk = true := h.running hp
  simp [hi] at hinit

/-- Settles O17: the step waits for a word, or runs one, which raises NOT_INITIALISED whatever it decodes to. -/
theorem failedInitialisationLastsUntilReset : Obligations.FailedInitialisationLastsUntilReset := by
  unfold Obligations.FailedInitialisationLastsUntilReset
  intro s h hi hr
  have ha : Accepts s := accepts_of_not_initOk h hi hr
  cases hq : s.port with
  | nil => exact stepWith_wait ha hq
  | cons c rest => exact (stepWith_accept ha hq).trans (runWord_of_not_initOk c (s := { s with port := rest }) hi)

/-! ### The state after a successful reset -/

/-- The default parameters are legal for `State.reset`'s geometry (00_scope.md R7). -/
theorem defaultConfig_wf : defaultConfig.Wf := by decide

/-- Settles O18: `State.reset` field by field; `STATUS` shows INIT_OK alone. -/
theorem resetStateIsInitialised : Obligations.ResetStateIsInitialised := by
  unfold Obligations.ResetStateIsInitialised
  have hstatus : status State.reset = 0x02 := by decide
  exact ⟨hstatus, rfl, rfl, rfl, rfl, rfl, rfl, defaultConfig_wf⟩

/-- Settles O48: `State.reset` is an idle block with no error recorded, at a byte boundary, outside a transaction. -/
theorem invariantHoldsAtReset : Obligations.InvariantHoldsAtReset where
  cfg := defaultConfig_wf
  fb := nil_wf _
  err := by simp [State.reset]
  illegal := fun _ => rfl
  notInit := by simp [State.reset]
  busy := rfl
  running := fun _ => rfl
  count := Nat.zero_le 8
  boundary := fun _ => rfl
  clk := rfl
  cs := rfl
  row := by simp [State.reset, inRow]
  col := by simp [State.reset]

end Sys2Proof.Machine
end
